-- ==== Sys2Proof/Word.lean ====
section
/-! DEFINITION. The bit-vector types of the CORE: bytes (R9, R21, R40) and the two encoded words (R73, R78). -/

namespace Sys2Proof

/-- A register, a data value or an address: 8 bits, unsigned (R9, R21, R40). -/
abbrev Byte := BitVec 8

/-- The command word of format CMD: 19 bits (R78). -/
abbrev CmdWord := BitVec 19

/-- The protocol byte pair of format PAIR: 16 bits, the first-received byte on the left (R73). -/
abbrev PairWord := BitVec 16

end Sys2Proof
end

