-- ==== Sys2Proof/Config.lean ====
section
/-! DEFINITION. The implementation parameters of rule R5 and the one free value, the arbiter's order. -/

namespace Sys2Proof.Config

/-- Number of registers; valid addresses are 0..N-1 (R5, R6). -/
abbrev N : Nat := 4

/-- Width of a register and of every data value (R5). -/
abbrev dataW : Nat := 8

/-- Width of every address operand (R5, decision D2; log entry 16). -/
abbrev addrW : Nat := 8

/-- Width of the command word (R5, R78). -/
abbrev cmdW : Nat := 19

/-- Width of the protocol byte pair (R73). -/
abbrev pairW : Nat := 16

/-- `DIGITAL_ADDR`, the digital-input snapshot register (R5, R22). -/
def digitalAddr : Byte := 0

/-- `ANALOG0_ADDR`, the analog channel 0 register (R5, R22). -/
def analog0Addr : Byte := 1

/-- `ANALOG1_ADDR`, the analog channel 1 register (R5, R22). -/
def analog1Addr : Byte := 2

/-- `ACTIVE_ADDR`, the active output-configuration register (R5, R22). -/
def activeAddr : Byte := 3

/-- `NUM_ANALOG`, the number of analog channels (R5). -/
def numAnalog : Nat := 2

/-- `OOR_READ`, what a read of an address `>= N` returns (R5, R44). -/
def oorRead : Byte := 0

/-- `RESET_VALUE` of every register (R5, R36). -/
def resetValue : Byte := 0

/-- `INIT_RESETS_CURSOR`: INIT returns the sequencer to AwaitingAddress (R5, decision D5, conflict C4).
DESIGN CHOICE of the spec, unsafe if wrong; log entry 7. -/
def initResetsCursor : Bool := true

/-- `ARB_ORDER` is OPEN (R5, R55, decision D4): a free value. Applied to the serial number of a request
that becomes pending it says how long the arbiter may let that request wait; nothing constrains it. DESIGN CHOICE; log entry 2. -/
opaque arbOrder : Nat → Nat

end Sys2Proof.Config
end

