-- ==== Sys2Proof/Syntax.lean ====
section
/-! DEFINITION. The operations of the CORE (R7, opcode_table.json), the five ports and their agents (R8, R70). -/

namespace Sys2Proof

/-- The operations: one constructor per row of spec/opcode_table.json. Fields that rule R79 marks "ignored" are no
operands (R80). -/
inductive Instr where
  /-- INIT (R100). -/
  | init
  /-- READ a (R101). -/
  | read (a : Byte)
  /-- WRITE a, v (R102). -/
  | write (a v : Byte)
  /-- SET_DIGITAL_SNAPSHOT v (R103). -/
  | setDigitalSnapshot (v : Byte)
  /-- SET_ANALOG_CHANNEL c, v (R104). -/
  | setAnalogChannel (c v : Byte)
  /-- SET_ACTIVE v (R105). -/
  | setActive (v : Byte)
  /-- GET_AND_ACK_CHANGE (R137). -/
  | getAndAckChange
  /-- ON_BYTE_RECEIVED b (R120). -/
  | onByteReceived (b : Byte)
  /-- PAIR a, v, the bus-level instruction (R73, R126). -/
  | pair (a v : Byte)
  deriving DecidableEq, Repr

/-- The five request ports (R70). -/
inductive Port where
  /-- `P_BYTE` -/
  | byte
  /-- `P_WR` -/
  | wr
  /-- `P_RD` -/
  | rd
  /-- `P_ACK` -/
  | ack
  /-- `P_INIT` -/
  | init
  deriving DecidableEq, Repr

/-- The five agents of the environment (R8). -/
inductive Agent where
  | bus | samp | rd | pub | host
  deriving DecidableEq, Repr

/-- One port per agent (R70). -/
def Port.agent : Port → Agent
  | .byte => .bus
  | .wr => .samp
  | .rd => .rd
  | .ack => .pub
  | .init => .host

/-- The port that carries an operation (R70; the PAIR row names `P_BYTE`). -/
def Instr.port : Instr → Port
  | .init => .init
  | .read _ => .rd
  | .write _ _ => .wr
  | .setDigitalSnapshot _ => .wr
  | .setAnalogChannel _ _ => .wr
  | .setActive _ => .wr
  | .getAndAckChange => .ack
  | .onByteReceived _ => .byte
  | .pair _ _ => .byte

/-- The mnemonic, as opcode_table.json and R79 spell it. -/
def Instr.mnemonic : Instr → String
  | .init => "INIT"
  | .read _ => "READ"
  | .write _ _ => "WRITE"
  | .setDigitalSnapshot _ => "SET_DIGITAL_SNAPSHOT"
  | .setAnalogChannel _ _ => "SET_ANALOG_CHANNEL"
  | .setActive _ => "SET_ACTIVE"
  | .getAndAckChange => "GET_AND_ACK_CHANGE"
  | .onByteReceived _ => "ON_BYTE_RECEIVED"
  | .pair _ _ => "PAIR"

/-- The short form used in traces (R79, R84, R85). -/
def Instr.shortForm : Instr → String
  | .init => "INIT"
  | .read _ => "READ"
  | .write _ _ => "WRITE"
  | .setDigitalSnapshot _ => "SDS"
  | .setAnalogChannel _ _ => "SAC"
  | .setActive _ => "SACT"
  | .getAndAckChange => "ACK"
  | .onByteReceived _ => "BYTE"
  | .pair _ _ => "PAIR"

/-- The pseudo-operation `BYTES b0, b1, ..., bk` (R85). -/
def Instr.bytes (bs : List Byte) : List Instr := bs.map .onByteReceived

/-- What an operation is made of on its port: a pair is two byte operations, every other operation itself (R85). -/
def Instr.expand : Instr → List Instr
  | .pair a v => [.onByteReceived a, .onByteReceived v]
  | .init => [.init]
  | .read a => [.read a]
  | .write a v => [.write a v]
  | .setDigitalSnapshot v => [.setDigitalSnapshot v]
  | .setAnalogChannel c v => [.setAnalogChannel c v]
  | .setActive v => [.setActive v]
  | .getAndAckChange => [.getAndAckChange]
  | .onByteReceived b => [.onByteReceived b]

end Sys2Proof
end

