-- ==== Sys2Proof/WellFormed.lean ====
section
/-! DEFINITION. What is well formed: every operation, whatever its operands (R76, R83); a number that fits its format's
width (R73, R78); an operation on the port that carries it (R70). -/

namespace Sys2Proof

/-- There is no illegal operation: every value of every operand is legal (R76, R83, R106). -/
def Instr.wf : Instr → Bool
  | .init => true
  | .read _ => true
  | .write _ _ => true
  | .setDigitalSnapshot _ => true
  | .setAnalogChannel _ _ => true
  | .setActive _ => true
  | .getAndAckChange => true
  | .onByteReceived _ => true
  | .pair _ _ => true

/-- The two formats (R73, R78). -/
inductive Format where
  | cmd
  | pair
  deriving DecidableEq, Repr

/-- The width of a format in bits (R73, R78). -/
def Format.width : Format → Nat
  | .cmd => Config.cmdW
  | .pair => Config.pairW

/-- A number is a word of the format when it fits the format's width: command words are 0x00000..0x7FFFF (R78), pairs
0x0000..0xFFFF (R73). -/
def Format.fits (f : Format) (w : Nat) : Bool := decide (w < 2 ^ f.width)

/-- The operations column of the port table (R70). -/
def Port.carries (p : Port) (i : Instr) : Bool := decide (i.port = p)

end Sys2Proof
end

