-- ==== Sys2Proof/Decode.lean ====
section
/-! DEFINITION. The decoder of both formats (R73, R74, R78 to R81), the encoder, and the rows of opcode_table.json. -/

namespace Sys2Proof

/-- An encoded operation as it is presented: a command word or a protocol byte pair (R70, R73, R78). -/
inductive Packet where
  | cmd (w : CmdWord)
  | pair (w : PairWord)
  deriving DecidableEq, Repr

/-- `CMD[18:16]` = `op` (R78). -/
def cmdOp (w : CmdWord) : BitVec 3 := w.extractLsb' 16 3

/-- `CMD[15:8]` = `a` (R78). -/
def cmdA (w : CmdWord) : Byte := w.extractLsb' 8 8

/-- `CMD[7:0]` = `v` (R78). -/
def cmdV (w : CmdWord) : Byte := w.extractLsb' 0 8

/-- The first received byte of a pair, the address (R73, R74). -/
def pairA (w : PairWord) : Byte := w.extractLsb' 8 8

/-- The second received byte of a pair, the value (R73, R74). -/
def pairV (w : PairWord) : Byte := w.extractLsb' 0 8

/-- The operation codes of R79: all eight are used, so the decoder is total; a field marked "ignored" there is not
read (R80). -/
def decodeCmd (w : CmdWord) : Instr :=
  match (cmdOp w).toNat with
  | 0 => .init
  | 1 => .read (cmdA w)
  | 2 => .write (cmdA w) (cmdV w)
  | 3 => .setDigitalSnapshot (cmdV w)
  | 4 => .setAnalogChannel (cmdA w) (cmdV w)
  | 5 => .setActive (cmdV w)
  | 6 => .getAndAckChange
  | _ => .onByteReceived (cmdV w)

/-- Every pattern of 16 bits is a pair (R76). -/
def decodePair (w : PairWord) : Instr := .pair (pairA w) (pairV w)

/-- The decoder of a presented word: total, nothing is illegal (R76, R79, R83). -/
def decode : Packet → Instr
  | .cmd w => decodeCmd w
  | .pair w => decodePair w

/-- Why a number is no word of either format. -/
inductive DecodeError where
  /-- The number of bits is that of neither format (R73, R78). -/
  | noSuchFormat
  /-- The number does not fit the format's width (R73, R78). -/
  | wordTooWide
  deriving DecidableEq, Repr

/-- The format of a row of `nbits` bits: 16 bits are a pair, 19 bits (24 in whole bytes) a command word. DEDUCED; log
entry 9. -/
def formatOfBits (nbits : Nat) : Option Format :=
  if nbits = Config.pairW then some .pair
  else if Config.cmdW ≤ nbits then some .cmd
  else none

/-- Any number of bits and any number to a presented word, or the name of what is wrong with it. -/
def packetOfNumber (nbits w : Nat) : Except DecodeError Packet :=
  match formatOfBits nbits with
  | none => .error .noSuchFormat
  | some .cmd => if Format.cmd.fits w then .ok (.cmd (BitVec.ofNat 19 w)) else .error .wordTooWide
  | some .pair => if Format.pair.fits w then .ok (.pair (BitVec.ofNat 16 w)) else .error .wordTooWide

/-- The decoder on any number, rejecting by name. -/
def decodeNumber (nbits w : Nat) : Except DecodeError Instr := (packetOfNumber nbits w).map decode

/-- The instruction the decoder reads from a row's bits, numbered as spec/opcode_table.json numbers them. -/
def decodeTableWord (nbits w : Nat) : Option Instr :=
  match decodeNumber nbits w with
  | .ok i => some i
  | .error _ => none

/-- A command word from its fields, `ooo aaaaaaaa vvvvvvvv` (R78). -/
def cmdWord (op : BitVec 3) (a v : Byte) : CmdWord := op ++ a ++ v

/-- A pair word from its bytes, `aaaaaaaa vvvvvvvv` (R73). -/
def pairWord (a v : Byte) : PairWord := a ++ v

/-- The words of an operation: the codes of R79, ignored fields written as zero (R80). -/
def encode : Instr → Packet
  | .init => .cmd (cmdWord 0 0 0)
  | .read a => .cmd (cmdWord 1 a 0)
  | .write a v => .cmd (cmdWord 2 a v)
  | .setDigitalSnapshot v => .cmd (cmdWord 3 0 v)
  | .setAnalogChannel c v => .cmd (cmdWord 4 c v)
  | .setActive v => .cmd (cmdWord 5 0 v)
  | .getAndAckChange => .cmd (cmdWord 6 0 0)
  | .onByteReceived b => .cmd (cmdWord 7 0 b)
  | .pair a v => .pair (pairWord a v)

/-- What a presented word is on its port: a pair arrives as its two byte operations, one after the other (R70, R85). -/
def Packet.expand : Packet → List Packet
  | .cmd w => [.cmd w]
  | .pair w => [encode (.onByteReceived (pairA w)), encode (.onByteReceived (pairV w))]

/-- The number a presented word is, bit 0 its least significant bit. -/
def Packet.toNat : Packet → Nat
  | .cmd w => w.toNat
  | .pair w => w.toNat

/-- The format of a presented word. -/
def Packet.format : Packet → Format
  | .cmd _ => .cmd
  | .pair _ => .pair

/-- A row of spec/opcode_table.json: `matchBits` and `mask` as the table has them (the PAIR row fixes no bit). -/
structure OpcodeRow where
  mnemonic : String
  format : Format
  matchBits : Nat
  mask : Nat
  deriving DecidableEq, Repr

/-- spec/opcode_table.json, in its order. -/
def opcodeTable : List OpcodeRow :=
  [ ⟨"INIT", .cmd, 0x00000, 0x70000⟩,
    ⟨"READ", .cmd, 0x10000, 0x70000⟩,
    ⟨"WRITE", .cmd, 0x20000, 0x70000⟩,
    ⟨"SET_DIGITAL_SNAPSHOT", .cmd, 0x30000, 0x70000⟩,
    ⟨"SET_ANALOG_CHANNEL", .cmd, 0x40000, 0x70000⟩,
    ⟨"SET_ACTIVE", .cmd, 0x50000, 0x70000⟩,
    ⟨"GET_AND_ACK_CHANGE", .cmd, 0x60000, 0x70000⟩,
    ⟨"ON_BYTE_RECEIVED", .cmd, 0x70000, 0x70000⟩,
    ⟨"PAIR", .pair, 0, 0⟩ ]

/-- A presented word is of a row: its format, and the row's fixed bits. -/
def OpcodeRow.holds (r : OpcodeRow) (k : Packet) : Bool :=
  decide (k.format = r.format) && decide (k.toNat &&& r.mask = r.matchBits)

end Sys2Proof
end

