-- ==== Sys2Proof/Machine/State.lean ====
section
/-! DEFINITION. The state: the CORE's 42 bits (R20), the five ports with their pending requests and the output lines (R35,
R70, R71, R82), the environment's free inputs, and the two counters of the arbiter's free value. -/

namespace Sys2Proof.Machine

/-- The sequencer state as the rules write it (R10, R30). -/
inductive Seq where
  | awaitingAddress
  | awaitingData (p : Byte)
  deriving DecidableEq, Repr

/-- The response lines of the operation just applied (R82). `chg none` is `None`, `chg (some w)` is `Some(w)` (R10,
decision D11). -/
inductive Response where
  | none
  | rdata (v : Byte)
  | chg (c : Option Byte)
  deriving DecidableEq, Repr

/-- `chg_valid` (R82). -/
def Response.chgValid : Response → Bool
  | .chg (some _) => true
  | .chg .none => false
  | .none => false
  | .rdata _ => false

/-- `chg_value[7:0]`: with `None` it is driven to 0x00 (R82, decision D11; log entry 5). -/
def Response.chgValue : Response → Byte
  | .chg (some w) => w
  | .chg .none => 0
  | .none => 0
  | .rdata _ => 0

/-- A pending request: the presented word, and the number that orders it among the pending requests: the arbiter grants
the smallest (R55; log entry 2). -/
structure Request where
  word : Packet
  due : Nat
  deriving DecidableEq, Repr

/-- One port: the one request pending on it (R55, R71), and the words its agent has to present on it after that one,
oldest first (R53; log entry 3). -/
structure PortState where
  pending : Option Request
  waiting : List Packet
  deriving DecidableEq, Repr

/-- A port on which nothing is pending and nothing waits. -/
def PortState.empty : PortState := ⟨none, []⟩

/-- The five ports (R70). -/
structure Ports where
  byte : PortState
  wr : PortState
  rd : PortState
  ack : PortState
  init : PortState
  deriving DecidableEq, Repr

/-- No request on any port. -/
def Ports.empty : Ports := ⟨.empty, .empty, .empty, .empty, .empty⟩

/-- What the environment does in one step: the level of the reset input, and the words it presents (R8, R71, R170). -/
structure EnvStep where
  rst : Bool
  present : List Packet
  deriving DecidableEq, Repr

/-- A step in which the environment presents nothing (R85: an idle step is a step with no request). -/
def EnvStep.idle : EnvStep := ⟨false, []⟩

/-- The whole machine. -/
structure State where
  /-- the four registers `x[0..3]` (R21, R22) -/
  x : Vector Byte Config.N
  /-- the notification flag, true = Set (R28) -/
  notify : Bool
  /-- `awaiting_data` (R30) -/
  awaitingData : Bool
  /-- `pending_address` (R30, R31) -/
  pendingAddress : Byte
  /-- the requests of the five ports (R35, R55, R70) -/
  ports : Ports
  /-- the environment's coming steps, the next first; after the last one it presents nothing (free input, R8) -/
  inputs : List EnvStep
  /-- the port whose `gnt` was 1 in the step just taken (R71) -/
  gnt : Option Port
  /-- the response lines of the step just taken (R71, R82) -/
  resp : Response
  /-- steps taken: the model's counter for the arbiter's order (log entry 2) -/
  tick : Nat
  /-- requests that have become pending: the model's counter for the arbiter's free value (log entry 2) -/
  serial : Nat
  deriving DecidableEq, Repr

/-- The sequencer state (R30): `pending_address` counts only while `awaiting_data` is true (R31). -/
def State.seq (s : State) : Seq := if s.awaitingData then .awaitingData s.pendingAddress else .awaitingAddress

/-- The CORE raises no exception, fault or trap: the set of causes is empty (R150). No constructor; safe, since no step
ends in a fault (log entry 18). -/
inductive Fault where
  deriving DecidableEq, Repr

/-- Why a step has no meaning. -/
inductive Refusal where
  /-- An arm of `exec` without a meaning yet; raised by no arm of this model. Safe: it stops. -/
  | notModelled (mnemonic : String)
  deriving DecidableEq, Repr

/-- The state after power-on reset (R36, R170). The environment presents nothing and nothing is pending; the outputs show
no grant and no response; the model's counters start at 0 (DESIGN CHOICE; log entry 11). -/
def State.reset : State where
  x := Vector.replicate Config.N Config.resetValue
  notify := false
  awaitingData := false
  pendingAddress := 0
  ports := Ports.empty
  inputs := []
  gnt := none
  resp := .none
  tick := 0
  serial := 0

end Sys2Proof.Machine
end

