-- ==== Sys2Proof/Machine/Flags.lean ====
section
/-! DEFINITION. The one flag of the CORE, `notify`: what sets it, what clears it, and the level output (R28, R34, R135,
R136, R139). -/

namespace Sys2Proof.Machine

/-- The flag after a write of address `a` that reached the bank: set at `ACTIVE_ADDR`, whatever was written and whatever
the flag was; else kept (R45, R136). -/
def notifyAfterWrite (a : Byte) (old : Bool) : Bool := if a = Config.activeAddr then true else old

/-- The flag after GET_AND_ACK_CHANGE: Clear, whatever it was (R135, R137). -/
def notifyAfterAck : Bool := false

/-- The flag after INIT and after power-on reset (R36, R100, R139). -/
def notifyAfterInit : Bool := false

/-- The level output `change_pending`, equal to `notify` at every step (R34). -/
def State.changePending (s : State) : Bool := s.notify

end Sys2Proof.Machine
end

