-- ==== Sys2Proof/Machine/Operands.lean ====
section
/-! DEFINITION. Operand forms: the absolute address (R46, R81), its range check (R43), and the channel operand (R81,
R104). Values and addresses are the fields of the word unchanged, so the decoder delivers them (R74, R81). -/

namespace Sys2Proof.Machine

/-- `valid(a)`: the unsigned comparison `a < N` over all 8 bits (R43). -/
def validAddr (a : Byte) : Bool := decide (a.toNat < Config.N)

/-- The register address a channel selects: `ANALOG0_ADDR + c` for `c < NUM_ANALOG`, none otherwise (R81, R104; the
other channels are the spec's decision D9, log entry 8). -/
def analogAddress (c : Byte) : Option Byte :=
  if c.toNat < Config.numAnalog then some (Config.analog0Addr + c) else none

end Sys2Proof.Machine
end

