-- ==== Sys2Proof/Machine/Ops.lean ====
section
/-! DEFINITION. The named operations over the registers, the flag and the sequencer: `MemRead` and `MemWrite` (R44, R45),
the clearing of INIT (R100), the two byte transitions (R120), the acknowledgment (R137), and the response (R82).
The CORE takes no exception and returns from none (R150, R156, R157), so there is no operation for either. -/

namespace Sys2Proof.Machine

/-- `MemRead(a, 1)` (R44). -/
def memRead (a : Byte) (s : State) : Byte :=
  if h : a.toNat < Config.N then s.x[a.toNat] else Config.oorRead

/-- `MemWrite(a, 1, v)`: store and flag in one state change; nothing at all out of range (R45). -/
def memWrite (a v : Byte) (s : State) : State :=
  if h : a.toNat < Config.N then
    { s with x := s.x.set a.toNat v h, notify := notifyAfterWrite a s.notify }
  else s

/-- The response lines in the step of the operation (R71, R82); an operation without a response drives `Response.none`
(log entry 5). -/
def respond (r : Response) (s : State) : State := { s with resp := r }

/-- INIT on the registers, the flag and, when the parameter says so, the sequencer (R100). Argument: the parameter
`INIT_RESETS_CURSOR`, so that both readings of conflict C4 can be stated. -/
def initCore (resetsCursor : Bool) (s : State) : State :=
  { s with
    x := Vector.replicate Config.N Config.resetValue
    notify := notifyAfterInit
    awaitingData := if resetsCursor then false else s.awaitingData
    pendingAddress := if resetsCursor then 0 else s.pendingAddress }

/-- The address byte: latched without any range check (R120 case (a)). -/
def latchAddress (b : Byte) (s : State) : State := { s with awaitingData := true, pendingAddress := b }

/-- The cursor after a data byte: AwaitingAddress, unconditionally (R123); `pending_address` keeps the address it held
(R31, decision D12). -/
def closePair (s : State) : State := { s with awaitingData := false }

/-- One received byte: address or data by the cursor alone (R75, R120). -/
def receiveByte (b : Byte) (s : State) : State :=
  if s.awaitingData then closePair (memWrite s.pendingAddress b s) else latchAddress b s

/-- The value of the active register, `x[3]` (R22, R137). -/
def activeValue (s : State) : Byte := memRead Config.activeAddr s

/-- What GET_AND_ACK_CHANGE returns (R137). -/
def ackResponse (s : State) : Response := .chg (if s.notify then some (activeValue s) else none)

/-- What GET_AND_ACK_CHANGE does to the flag (R137). -/
def ackFlag (s : State) : State := { s with notify := notifyAfterAck }

end Sys2Proof.Machine
end

