-- ==== Sys2Proof/Machine/Environment.lean ====
section
/-! DEFINITION. What the environment does to the ports at the start of a step: presenting words (R71), one request pending
on a port at a time (R55), the reset input (R170), and placing one word so that the next step grants it. -/

namespace Sys2Proof.Machine

/-- The five ports, each once. -/
def allPorts : List Port := [.byte, .wr, .rd, .ack, .init]

/-- The state of one port. -/
def Ports.line (q : Ports) : Port → PortState
  | .byte => q.byte
  | .wr => q.wr
  | .rd => q.rd
  | .ack => q.ack
  | .init => q.init

/-- Replace the state of one port. -/
def Ports.setLine (q : Ports) (p : Port) (l : PortState) : Ports :=
  match p with
  | .byte => { q with byte := l }
  | .wr => { q with wr := l }
  | .rd => { q with rd := l }
  | .ack => { q with ack := l }
  | .init => { q with init := l }

/-- The request pending on a port (R55, R71). -/
def Ports.pending (q : Ports) (p : Port) : Option Request := (q.line p).pending

/-- What its agent still has to present on a port (R53). -/
def Ports.waiting (q : Ports) (p : Port) : List Packet := (q.line p).waiting

/-- The words on a port, oldest first: the pending one, then those that wait (R53). -/
def Ports.words (q : Ports) (p : Port) : List Packet := ((q.pending p).map Request.word).toList ++ q.waiting p

/-- The request line of a port (R71): 1 while a request is pending on it. -/
def Ports.req (q : Ports) (p : Port) : Bool := (q.pending p).isSome

/-- A new word goes behind those its agent has presented before, so that the order of the port is kept (R53). -/
def Ports.enqueue (q : Ports) (p : Port) (k : Packet) : Ports :=
  q.setLine p { q.line p with waiting := q.waiting p ++ [k] }

/-- The granted request leaves its port (R55). -/
def Ports.remove (q : Ports) (p : Port) : Ports := q.setLine p { q.line p with pending := none }

/-- What the environment does in the coming step; when nothing is listed, nothing. -/
def State.input (s : State) : EnvStep := s.inputs.headD EnvStep.idle

/-- The environment has one more word to present, on the port that carries it (R70, R71). -/
def presentOne (k : Packet) (s : State) : State := { s with ports := s.ports.enqueue (decode k).port k }

/-- The environment has words to present, in order. -/
def presentAll (ks : List Packet) (s : State) : State := ks.foldl (fun t k => presentOne k t) s

/-- Where nothing is pending on a port, the first word that waits there becomes pending (R71: one request at a time). How
long the arbiter may let it wait is free (log entry 2). -/
def offer (p : Port) (s : State) : State :=
  match s.ports.pending p with
  | some _ => s
  | none =>
    match s.ports.waiting p with
    | [] => s
    | k :: ks =>
      { s with
        ports := s.ports.setLine p ⟨some ⟨k, s.tick + Config.arbOrder s.serial⟩, ks⟩
        serial := s.serial + 1 }

/-- Every agent with something to present presents it. -/
def offerAll (s : State) : State := allPorts.foldl (fun t p => offer p t) s

/-- The words the coming step brings: a pair arrives as its two bytes (R70, R85). -/
def State.arrivals (s : State) : List Packet := s.input.present.flatMap Packet.expand

/-- One entry of the environment's list is used up, and one step counted. -/
def advance (s : State) : State := { s with inputs := s.inputs.tail, tick := s.tick + 1 }

/-- The start of a step: the requests presented in it are on the ports (R71; log entry 19). -/
def sample (s : State) : State := advance (offerAll (presentAll s.arrivals s))

/-- A step in which `rst` is asserted: the reset values are held, nothing is granted, and no request is remembered
(R170; log entry 4). The environment's coming steps and the model's counters go on. -/
def powerOnReset (s : State) : State :=
  { State.reset with inputs := (advance s).inputs, tick := (advance s).tick, serial := s.serial }

/-- Make one word the only request, pending, with nothing else presented in the coming step, so that the coming step
grants it (log entry 12). -/
def placeRequest (k : Packet) (s : State) : State :=
  { s with
    ports := Ports.empty.setLine (decode k).port ⟨some ⟨k, 0⟩, []⟩
    inputs := EnvStep.idle :: s.inputs }

end Sys2Proof.Machine
end

