-- ==== Sys2Proof/Machine/Arbiter.lean ====
section
/-! DEFINITION. The read/write arbiter (R54, R55, R56) and the fetch of the granted operation. -/

namespace Sys2Proof.Machine

/-- The set `P` of pending requests (R55), each with its port. -/
def Ports.candidates (q : Ports) : List (Port × Request) :=
  allPorts.filterMap fun p => (q.pending p).map fun r => (p, r)

/-- The candidate with the smallest number; the first of those that share it. -/
def earliest (c : Port × Request) : List (Port × Request) → Port × Request
  | [] => c
  | d :: ds => if d.2.due < c.2.due then earliest d ds else earliest c ds

/-- The arbiter: no grant if nothing is pending, else exactly one member of `P` (R55). Which one follows the requests'
free numbers, so every order without starvation is possible and no other (R55, R56; log entry 2). -/
def arbitrate (q : Ports) : Option (Port × Request) :=
  match q.candidates with
  | [] => none
  | c :: cs => some (earliest c cs)

/-- The grant: the request leaves its port, and the port's `gnt` is 1 in this step (R71). -/
def grant (p : Port) (s : State) : State := { s with ports := s.ports.remove p, gnt := some p }

/-- A step without a grant: no `gnt` and no response; nothing else changes (R55, R173). -/
def noGrant (s : State) : State := { s with gnt := none, resp := .none }

/-- The operation the arbiter grants, decoded from the presented word, and the state it is applied to; none if nothing is
pending. -/
def fetch (s : State) : Option (Instr × State) :=
  (arbitrate s.ports).map fun c => (decode c.2.word, grant c.1 s)

end Sys2Proof.Machine
end

