-- ==== Sys2Proof/Machine/Bank.lean ====
section
/-! DEFINITION. The six operations of the RegisterBank (R100 to R105). Each is total: it always gives a next state (R106). -/

namespace Sys2Proof.Machine

/-- INIT (R100). -/
def execInit (s : State) : Host.Outcome State Fault Refusal :=
  .next (respond .none (initCore Config.initResetsCursor s))

/-- READ a (R101). -/
def execRead (a : Byte) (s : State) : Host.Outcome State Fault Refusal :=
  .next (respond (.rdata (memRead a s)) s)

/-- WRITE a, v (R102). -/
def execWrite (a v : Byte) (s : State) : Host.Outcome State Fault Refusal :=
  .next (respond .none (memWrite a v s))

/-- SET_DIGITAL_SNAPSHOT v (R103). -/
def execSetDigitalSnapshot (v : Byte) (s : State) : Host.Outcome State Fault Refusal :=
  .next (respond .none (memWrite Config.digitalAddr v s))

/-- SET_ANALOG_CHANNEL c, v (R104); a channel that selects no register writes nothing (decision D9; log entry 8). -/
def execSetAnalogChannel (c v : Byte) (s : State) : Host.Outcome State Fault Refusal :=
  match analogAddress c with
  | some a => .next (respond .none (memWrite a v s))
  | none => .next (respond .none s)

/-- SET_ACTIVE v (R105). -/
def execSetActive (v : Byte) (s : State) : Host.Outcome State Fault Refusal :=
  .next (respond .none (memWrite Config.activeAddr v s))

end Sys2Proof.Machine
end

