-- ==== Sys2Proof/Machine/Notifier.lean ====
section
/-! DEFINITION. The acknowledgment of the ChangeNotifier (R137). -/

namespace Sys2Proof.Machine

/-- GET_AND_ACK_CHANGE: flag test, read of `x[3]` and clear in one step (R59, R137). -/
def execGetAndAckChange (s : State) : Host.Outcome State Fault Refusal :=
  .next (respond (ackResponse s) (ackFlag s))

end Sys2Proof.Machine
end

