-- ==== Sys2Proof/Machine/Sequencer.lean ====
section
/-! DEFINITION. The byte sequencer: ON_BYTE_RECEIVED (R120) and the pair as a unit (R126). -/

namespace Sys2Proof.Machine

/-- ON_BYTE_RECEIVED b (R120); it returns nothing (R82, R127). -/
def execOnByteReceived (b : Byte) (s : State) : Host.Outcome State Fault Refusal :=
  .next (respond .none (receiveByte b s))

/-- PAIR a, v: its two bytes one after the other, nothing granted between them (R85, R126; log entry 1). -/
def execPair (a v : Byte) (s : State) : Host.Outcome State Fault Refusal :=
  .next (respond .none (receiveByte v (receiveByte a s)))

end Sys2Proof.Machine
end

