-- ==== Sys2Proof/Machine/Dispatch.lean ====
section
/-! DEFINITION. One arm per operation. -/

namespace Sys2Proof.Machine

def exec (i : Instr) (s : State) : Host.Outcome State Fault Refusal :=
  match i with
  | .init => Sys2Proof.Machine.execInit s
  | .read a => Sys2Proof.Machine.execRead a s
  | .write a v => Sys2Proof.Machine.execWrite a v s
  | .setDigitalSnapshot v => Sys2Proof.Machine.execSetDigitalSnapshot v s
  | .setAnalogChannel c v => Sys2Proof.Machine.execSetAnalogChannel c v s
  | .setActive v => Sys2Proof.Machine.execSetActive v s
  | .getAndAckChange => Sys2Proof.Machine.execGetAndAckChange s
  | .onByteReceived b => Sys2Proof.Machine.execOnByteReceived b s
  | .pair a v => Sys2Proof.Machine.execPair a v s

end Sys2Proof.Machine
end

