-- ==== Sys2Proof/Machine/Step.lean ====
section
/-! DEFINITION. One step of the machine (R55, R170), and the placing of one word where the step takes its next operation. -/

namespace Sys2Proof.Machine

/-- One step: under `rst` the reset state; else the environment presents its requests, the arbiter grants at most one, and
the granted operation is applied as one atomic step (R51, R52, R55, R170). -/
def step (s : State) : Host.Outcome State Fault Refusal :=
  if s.input.rst then .next (powerOnReset s)
  else
    match fetch (sample s) with
    | none => .next (noGrant (sample s))
    | some (i, t) => exec i t

/-- The state whose next step grants and runs the operation with these bits; bits that are no word change nothing. -/
def State.withFetchWord (s : State) (nbits w : Nat) : State :=
  match packetOfNumber nbits w with
  | .ok k => placeRequest k s
  | .error _ => s

end Sys2Proof.Machine
end

