-- ==== Sys2Proof/Safety.lean ====
section
/-! DEFINITION. The terms claims use: serial runs of operations (R52), the bank writes an operation performs and the cursor
it leaves (R24, R122), the history of a run, the invariant of the ports and their outputs (R70, R82), and safe steps (R150). -/

namespace Sys2Proof.Machine

/-- Operations in serial order, each applied to the state the one before it left (R52). -/
def applyOps : List Instr → State → Host.Outcome State Fault Refusal
  | [], s => .next s
  | i :: is, s =>
    match exec i s with
    | .next t => applyOps is t
    | .fault r => .fault r
    | .refused r => .refused r

/-- The responses of operations in serial order, each in the step of its operation (R52, R82). -/
def responses : List Instr → State → List Response
  | [], _ => []
  | i :: is, s =>
    match exec i s with
    | .next t => t.resp :: responses is t
    | .fault _ => []
    | .refused _ => []

/-- The two states agree in all of the CORE's own state: `x`, `notify`, `awaiting_data`, `pending_address` (R20). -/
def SameCore (s t : State) : Prop :=
  t.x = s.x ∧ t.notify = s.notify ∧ t.awaitingData = s.awaitingData ∧ t.pendingAddress = s.pendingAddress

/-- The two states agree in everything an operation does not reach: the ports, the environment's coming steps, the grant
line and the model's counters. -/
def SameSurroundings (s t : State) : Prop :=
  t.ports = s.ports ∧ t.inputs = s.inputs ∧ t.gnt = s.gnt ∧ t.tick = s.tick ∧ t.serial = s.serial

/-- The accesses `MemWrite(a, 1, v)` an operation performs when the sequencer is in `q`, in order (R24, R46); the
addresses are those the meanings use. -/
def writesOf (q : Seq) : Instr → List (Byte × Byte)
  | .init => []
  | .read _ => []
  | .write a v => [(a, v)]
  | .setDigitalSnapshot v => [(Config.digitalAddr, v)]
  | .setAnalogChannel c v =>
    match analogAddress c with
    | some a => [(a, v)]
    | none => []
  | .setActive v => [(Config.activeAddr, v)]
  | .getAndAckChange => []
  | .onByteReceived b =>
    match q with
    | .awaitingAddress => []
    | .awaitingData p => [(p, b)]
  | .pair a v =>
    match q with
    | .awaitingAddress => [(a, v)]
    | .awaitingData p => [(p, a)]

/-- The cursor after one received byte (R122). -/
def cursorAfterByte (b : Byte) : Seq → Seq
  | .awaitingAddress => .awaitingData b
  | .awaitingData _ => .awaitingAddress

/-- The transition table of the sequencer (R122, with `INIT_RESETS_CURSOR` as Config has it). -/
def cursorAfter (q : Seq) : Instr → Seq
  | .init => if Config.initResetsCursor then .awaitingAddress else q
  | .read _ => q
  | .write _ _ => q
  | .setDigitalSnapshot _ => q
  | .setAnalogChannel _ _ => q
  | .setActive _ => q
  | .getAndAckChange => q
  | .onByteReceived b => cursorAfterByte b q
  | .pair a v => cursorAfterByte v (cursorAfterByte a q)

/-- What a serial order of operations has done, told without the bank: the cursor, and the bank writes since the last
INIT, the latest first (R52). -/
structure History where
  seq : Seq
  log : List (Byte × Byte)
  deriving DecidableEq, Repr

/-- The history after one more operation; INIT starts it anew (R52, R100). -/
def History.after (h : History) (i : Instr) : History where
  seq := cursorAfter h.seq i
  log := if i = .init then [] else (writesOf h.seq i).reverse ++ h.log

/-- The history before the first operation after reset. -/
def History.start : History := ⟨.awaitingAddress, []⟩

/-- The value of the latest write to an address, the reset value if there is none (R25, R52). -/
def latest (a : Byte) : List (Byte × Byte) → Byte
  | [] => Config.resetValue
  | w :: ws => if w.1 = a then w.2 else latest a ws

/-- What a READ returns by the history alone: the latest write to a valid address, the sentinel elsewhere (R52). -/
def History.read (h : History) (a : Byte) : Byte := if validAddr a then latest a h.log else Config.oorRead

/-- All bank writes of a serial order of operations that starts with the sequencer in `q`, the first first. -/
def writesOfAll : Seq → List Instr → List (Byte × Byte)
  | _, [] => []
  | q, i :: is => writesOf q i ++ writesOfAll (cursorAfter q i) is

/-- The values written at the active address, the first first (R136). -/
def activeWrites (q : Seq) (is : List Instr) : List Byte :=
  ((writesOfAll q is).filter fun w => decide (w.1 = Config.activeAddr)).map Prod.snd

/-- The operation the coming step grants; none under `rst` and none when nothing is pending (R55, R170). -/
def granted (s : State) : Option Instr := if s.input.rst then none else (fetch (sample s)).map Prod.fst

/-- Each port holds only words for the operations it carries (R70). -/
def PortsCarry (q : Ports) : Prop := ∀ p : Port, ∀ k ∈ q.words p, p.carries (decode k) = true

/-- The response is a value read (R82). -/
def Response.isRdata : Response → Bool
  | .rdata _ => true
  | .none => false
  | .chg _ => false

/-- The response is that of an acknowledgment (R82). -/
def Response.isChg : Response → Bool
  | .chg _ => true
  | .none => false
  | .rdata _ => false

/-- The response lines are those of the port granted (R70, R82): a value on `P_RD`, the acknowledgment's on `P_ACK`,
nothing on the other ports and nothing without a grant. -/
def responseFits (g : Option Port) (r : Response) : Bool :=
  match g with
  | some .rd => r.isRdata
  | some .ack => r.isChg
  | some .byte => decide (r = .none)
  | some .wr => decide (r = .none)
  | some .init => decide (r = .none)
  | none => decide (r = .none)

/-- The invariant of the ports: what is pending belongs where it is, and what was answered is the granted port's. -/
def State.Inv (s : State) : Prop := PortsCarry s.ports ∧ responseFits s.gnt s.resp = true

/-- A safe step: it answers a next state (R150). -/
def SafeStep (s : State) : Prop := ∃ t, step s = .next t

/-- The words the coming step brings to one port, in order (R53). -/
def State.arrivalsOn (s : State) (p : Port) : List Packet := s.arrivals.filter fun k => decide ((decode k).port = p)

/-- The bytes the operations deliver to the sequencer, in order of reception (R73, R85). -/
def bytesOf : List Instr → List Byte
  | [] => []
  | .onByteReceived b :: is => b :: bytesOf is
  | .pair a v :: is => a :: v :: bytesOf is
  | .init :: is => bytesOf is
  | .read _ :: is => bytesOf is
  | .write _ _ :: is => bytesOf is
  | .setDigitalSnapshot _ :: is => bytesOf is
  | .setAnalogChannel _ _ :: is => bytesOf is
  | .setActive _ :: is => bytesOf is
  | .getAndAckChange :: is => bytesOf is

/-- A byte stream cut into pairs by count: byte 2k is an address, byte 2k+1 its data; a last lone byte has no data yet
(R124). -/
def pairsOf : List Byte → List (Byte × Byte)
  | a :: v :: bs => (a, v) :: pairsOf bs
  | [_] => []
  | [] => []

/-- The cursor after a byte stream that began at an address byte: an odd count leaves the last byte latched (R124). -/
def cursorOfBytes (bs : List Byte) : Seq :=
  if bs.length % 2 = 0 then .awaitingAddress else .awaitingData (bs.getLastD 0)

/-- The operations granted in the coming `k` steps, in the order granted (R52). -/
def grantedOps : Nat → State → List Instr
  | 0, _ => []
  | k + 1, s =>
    match step s with
    | .next t => (granted s).toList ++ grantedOps k t
    | .fault _ => []
    | .refused _ => []

/-- The responses in the steps of the coming `k` steps that grant an operation (R52, R71). -/
def grantedResponses : Nat → State → List Response
  | 0, _ => []
  | k + 1, s =>
    match step s with
    | .next t => (if t.gnt = none then [] else [t.resp]) ++ grantedResponses k t
    | .fault _ => []
    | .refused _ => []

/-- The operations granted on one port in the coming `k` steps, in the order granted (R53). -/
def grantedOnPort (p : Port) : Nat → State → List Instr
  | 0, _ => []
  | k + 1, s =>
    match step s with
    | .next t => (if t.gnt = some p then (granted s).toList else []) ++ grantedOnPort p k t
    | .fault _ => []
    | .refused _ => []

/-- The history after the coming `k` steps: a step with `rst` starts it anew, a step that grants adds the operation
(R52, R170). -/
def History.run (h : History) : Nat → State → History
  | 0, _ => h
  | k + 1, s =>
    match step s with
    | .next t => (if s.input.rst then History.start else (granted s).elim h h.after).run k t
    | .fault _ => h
    | .refused _ => h

/-- The coming `k` steps grant exactly these operations, in this order, and end, in state and responses, as the operations
applied one after the other (R52, R57). -/
def RunsAs (k : Nat) (s : State) (ops : List Instr) : Prop :=
  grantedOps k s = ops ∧ responses ops s = grantedResponses k s ∧
    ∃ t u, Sys2Proof.core.run k s = .next t ∧ applyOps ops s = .next u ∧ SameCore u t

/-- The state with two words pending on two ports, under given numbers, and with more words waiting on the first. -/
def State.withTwoPending (s : State) (p : Port) (k : Packet) (m : Nat) (ks : List Packet) (q : Port) (l : Packet)
    (n : Nat) : State :=
  { s with ports := (Ports.empty.setLine p ⟨some ⟨k, m⟩, ks⟩).setLine q ⟨some ⟨l, n⟩, []⟩ }

/-- Two steps grant port `p`, whose operation stores `w` in the active register, and then the acknowledgment, which returns
`w` and leaves the flag clear (R155). -/
def WriteThenAck (z : State) (p : Port) (w : Byte) : Prop :=
  ∃ s1 t, step z = .next s1 ∧ step s1 = .next t ∧ s1.gnt = some p ∧ t.gnt = some .ack ∧
    memRead Config.activeAddr t = w ∧ t.resp = .chg (some w) ∧ t.notify = false

/-- Two steps grant the acknowledgment, which returns the old value if the flag was set and "no change" otherwise, and then
port `p`, whose operation stores `w` in the active register and leaves the flag set (R155). -/
def AckThenWrite (z : State) (p : Port) (w : Byte) : Prop :=
  ∃ s1 t, step z = .next s1 ∧ step s1 = .next t ∧ s1.gnt = some .ack ∧ t.gnt = some p ∧
    memRead Config.activeAddr t = w ∧ t.notify = true ∧
    s1.resp = .chg (if z.notify then some (memRead Config.activeAddr z) else none)

end Sys2Proof.Machine
end

