-- ==== Sys2Proof/Certificates/Slice0/Obligations.lean ====
section
/-! DEFINITION. The statements for the provers. In the docstrings, "the spec's decision" marks a clause that rests on a
choice the spec marks as its own (92_eei_decisions.md), and a log entry one that rests on the model's. -/

open Sys2Proof Sys2Proof.Machine

/-! ### Encoding -/

/-- Decoding the encoding of any operation gives it back, on the presented word and on the table's number. All operations
are well formed (R83). Codes and widths are the spec's decisions D7, D8; the number of bits is log entry 9. -/
def Obligations.DecodeOfEncodeIsTheOperation : Prop :=
  ∀ i : Instr, decode (encode i) = i ∧ decodeTableWord (encode i).format.width (encode i).toNat = some i

/-- Two command words are the same operation exactly when they agree in `op` and in the fields that operation uses; every
bit of a pair is used (30_encoding.md section 3, the spec's decisions D7, D8). -/
def Obligations.DecodingReadsExactlyTheFieldsInUse : Prop :=
  (∀ w w' : CmdWord, decodeCmd w = decodeCmd w' ↔
    cmdOp w = cmdOp w' ∧ (cmdOp w = 1 ∨ cmdOp w = 2 ∨ cmdOp w = 4 → cmdA w = cmdA w') ∧
      (cmdOp w = 2 ∨ cmdOp w = 3 ∨ cmdOp w = 4 ∨ cmdOp w = 5 ∨ cmdOp w = 7 → cmdV w = cmdV w')) ∧
  (∀ w w' : PairWord, decodePair w = decodePair w' ↔ w = w')

/-- A command word is the number `op * 65536 + a * 256 + v` and its fields are read back; a pair is the number
`a * 256 + v` (30_encoding.md sections 2 and 3, the spec's decisions D7, D17). -/
def Obligations.WordsAreAssembledFromTheirFields : Prop :=
  (∀ (op : BitVec 3) (a v : Byte),
    (cmdWord op a v).toNat = op.toNat * 65536 + a.toNat * 256 + v.toNat ∧
      cmdOp (cmdWord op a v) = op ∧ cmdA (cmdWord op a v) = a ∧ cmdV (cmdWord op a v) = v) ∧
  (∀ a v : Byte,
    (pairWord a v).toNat = a.toNat * 256 + v.toNat ∧ pairA (pairWord a v) = a ∧ pairV (pairWord a v) = v)

/-- Words written out from the spec's encodings decode to their operations (95_test_vectors.md, family encoding). The codes
are the spec's decisions D7, D8 (log entry 13); reading a command word at 24 bits and a pair at 16 is log entry 9. -/
def Obligations.WrittenOutWordsDecode : Prop :=
  decodeTableWord 24 0b0000000000000000000 = some .init ∧
  decodeTableWord 24 0b0010000001110101011 = some (.read 3) ∧
  decodeTableWord 24 0b0100000001101000010 = some (.write 3 0x42) ∧
  decodeTableWord 24 0b0111010101011110000 = some (.setDigitalSnapshot 0xF0) ∧
  decodeTableWord 24 0b1000000000100110100 = some (.setAnalogChannel 1 0x34) ∧
  decodeTableWord 24 0b1010000000000100000 = some (.setActive 0x20) ∧
  decodeTableWord 24 0b1100000000000000000 = some .getAndAckChange ∧
  decodeTableWord 24 0b1111111111100000000 = some (.onByteReceived 0x00) ∧
  decodeTableWord 16 0b0000001101000010 = some (.pair 3 0x42)

/-! ### Reset -/

/-- The state after power-on reset: every register 0x00, the flag clear, the sequencer in AwaitingAddress, `change_pending`
0 (10_state.md section 8). That `change_pending` is the flag is the spec's decision D13 (log entry 14); `pending_address`
0x00 is its decision D12 (log entry 6). -/
def Obligations.ResetStateIsAllClear : Prop :=
  (∀ a : Byte, memRead a State.reset = 0x00) ∧ State.reset.x = Vector.replicate Config.N 0x00 ∧
    State.reset.notify = false ∧ State.reset.changePending = false ∧ State.reset.seq = .awaitingAddress ∧
    State.reset.awaitingData = false ∧ State.reset.pendingAddress = 0x00

/-- A step with `rst` asserted gives the reset values, grants nothing and forgets every request, whatever was pending or
is presented (70_reset_and_hazards.md section 1, the spec's decision D6). Forgetting what waited is log entry 4, no response
in a step without a grant log entry 5, and `pending_address` 0x00 the spec's decision D12 (log entry 6). -/
def Obligations.AssertedResetHoldsTheResetState : Prop :=
  ∀ s : State, s.input.rst = true →
    ∃ t, step s = .next t ∧ SameCore State.reset t ∧ t.gnt = none ∧ t.resp = .none ∧ t.ports = Ports.empty

/-- INIT and power-on reset produce the same state of the CORE, from any states (70_reset_and_hazards.md section 1). That
INIT resets the sequencer is the spec's decision D5 (log entry 7), that both leave the same `pending_address` its decision
D12 (log entry 6), and the input `rst` its decision D6 (log entry 15). -/
def Obligations.InitAndPowerOnResetReachTheSameCoreState : Prop :=
  ∀ s s' : State, s.input.rst = true → ∃ t u, step s = .next t ∧ exec .init s' = .next u ∧ SameCore t u

/-! ### Steps -/

/-- A step applies the decoded granted operation, to the state with the request taken off its port
(20_memory.md section 8; 30_encoding.md section 3). That a request can be granted in the step that presents it is log
entry 19. -/
def Obligations.StepAppliesTheGrantedDecodedOperation : Prop :=
  ∀ (s : State) (p : Port) (r : Request), s.input.rst = false → arbitrate (sample s).ports = some (p, r) →
    step s = exec (decode r.word) (grant p (sample s))

/-- The word placed for the next step is the operation it runs (log entry 12). -/
def Obligations.PlacedWordIsRunByTheNextStep : Prop :=
  ∀ (s : State) (nbits w : Nat) (i : Instr), decodeTableWord nbits w = some i →
    step (s.withFetchWord nbits w) =
      exec i { s with ports := Ports.empty, gnt := some i.port, tick := s.tick + 1 }

/-- A step with nothing pending changes nothing of the CORE and of the ports (20_memory.md section 8). That such a step shows
no response is log entry 5. -/
def Obligations.StepWithNothingPendingChangesNothing : Prop :=
  ∀ s : State, s.input.rst = false → (∀ p, (sample s).ports.req p = false) →
    ∃ t, step s = .next t ∧ SameCore s t ∧ t.ports = s.ports ∧ t.gnt = none ∧ t.resp = .none

/-- Every operation gives a next state with the response of its own kind and no error, and every step answers a next
state. -/
def Obligations.EveryOperationIsTotal : Prop :=
  (∀ (i : Instr) (s : State), ∃ t, exec i s = .next t ∧ responseFits (some i.port) t.resp = true) ∧
    ∀ s : State, SafeStep s

/-! ### Results of the operations -/

/-- INIT: registers 0x00, flag clear; the sequencer's reset is the spec's decision D5, `pending_address` 0x00 its decision
D12 (40_register_bank.md section 2). -/
def Obligations.InitClearsRegistersFlagAndSequencer : Prop :=
  ∀ s : State, exec .init s =
    .next { s with
      x := Vector.replicate Config.N 0x00, notify := false, awaitingData := false, pendingAddress := 0x00,
      resp := .none }

/-- INIT under both readings of conflict C4: registers and flag cleared, the cursor reset exactly when the parameter says
so, idempotent; and with the parameter's value INIT on the reset state changes nothing. -/
def Obligations.InitUnderBothReadingsOfTheCursorConflict : Prop :=
  (∀ (c : Bool) (s : State),
    (initCore c s).x = Vector.replicate Config.N 0x00 ∧ (initCore c s).notify = false ∧
      (initCore c s).seq = (if c then .awaitingAddress else s.seq) ∧ initCore c (initCore c s) = initCore c s) ∧
  exec .init State.reset = .next State.reset

/-- READ returns the stored byte of a valid address and 0x00 for any other, and changes no state. -/
def Obligations.ReadReturnsTheStoredByteOrTheSentinel : Prop :=
  ∀ (a : Byte) (s : State),
    exec (.read a) s = .next { s with resp := .rdata (memRead a s) } ∧
      (∀ h : a.toNat < Config.N, memRead a s = s.x[a.toNat]) ∧ (Config.N ≤ a.toNat → memRead a s = 0x00)

/-- WRITE stores at a valid address, in the same step sets the flag exactly at the active address whatever the old value
and flag were, and changes nothing at all out of range. -/
def Obligations.WriteStoresInRangeAndFlagsTheActiveAddress : Prop :=
  ∀ (a v : Byte) (s : State),
    (∀ h : a.toNat < Config.N,
      memWrite a v s = { s with x := s.x.set a.toNat v h, notify := if a = 3 then true else s.notify } ∧
      exec (.write a v) s =
        .next { s with x := s.x.set a.toNat v h, notify := if a = 3 then true else s.notify, resp := .none }) ∧
    (Config.N ≤ a.toNat → memWrite a v s = s ∧ exec (.write a v) s = .next { s with resp := .none })

/-- SET_DIGITAL_SNAPSHOT writes register 0 and leaves the flag (40_register_bank.md section 2). -/
def Obligations.SetDigitalSnapshotWritesRegisterZero : Prop :=
  ∀ (v : Byte) (s : State), exec (.setDigitalSnapshot v) s = .next { s with x := s.x.set 0 v, resp := .none }

/-- SET_ANALOG_CHANNEL writes register 1 or 2 and leaves the flag; any other channel is a no-op, the spec's decision D9
(40_register_bank.md section 2; log entry 8). -/
def Obligations.SetAnalogChannelWritesItsRegister : Prop :=
  ∀ (v : Byte) (s : State),
    exec (.setAnalogChannel 0 v) s = .next { s with x := s.x.set 1 v, resp := .none } ∧
    exec (.setAnalogChannel 1 v) s = .next { s with x := s.x.set 2 v, resp := .none } ∧
    ∀ c : Byte, 2 ≤ c.toNat → exec (.setAnalogChannel c v) s = .next { s with resp := .none }

/-- SET_ACTIVE writes register 3 and sets the flag, always (40_register_bank.md section 2; the operation's name and
signature are the spec's decision D10). -/
def Obligations.SetActiveWritesRegisterThreeAndSetsTheFlag : Prop :=
  ∀ (v : Byte) (s : State),
    exec (.setActive v) s = .next { s with x := s.x.set 3 v, notify := true, resp := .none }

/-- GET_AND_ACK_CHANGE returns the active register's value and clears the flag if it was set, and returns "no change"
otherwise; at bit level `None` is (0, 0x00) and `Some(w)` is (1, w), the spec's decision D11 (42_change_notifier.md
section 2). -/
def Obligations.AcknowledgmentReturnsTheValueAndClearsTheFlag : Prop :=
  ∀ s : State, exec .getAndAckChange s =
      .next { s with notify := false, resp := .chg (if s.notify then some s.x[3] else none) } ∧
    (ackResponse s).chgValid = s.notify ∧ (ackResponse s).chgValue = if s.notify then s.x[3] else 0x00

/-- ON_BYTE_RECEIVED: an address byte is latched without a range check and nothing else changes; a data byte is written to
the latched address if that is valid, sets the flag at the active address, and closes the pair in every case
(41_protocol_sequencer.md section 1; `pending_address` is kept afterwards by the spec's decision D12). -/
def Obligations.ByteIsLatchedAsAddressOrWrittenAsData : Prop :=
  ∀ (b : Byte) (s : State),
    (s.awaitingData = false →
      exec (.onByteReceived b) s = .next { s with awaitingData := true, pendingAddress := b, resp := .none }) ∧
    (s.awaitingData = true →
      (∀ h : s.pendingAddress.toNat < Config.N,
        exec (.onByteReceived b) s =
          .next { s with
            x := s.x.set s.pendingAddress.toNat b h
            notify := if s.pendingAddress = 3 then true else s.notify
            awaitingData := false, resp := .none }) ∧
      (Config.N ≤ s.pendingAddress.toNat →
        exec (.onByteReceived b) s = .next { s with awaitingData := false, resp := .none }))

/-- PAIR a, v: from AwaitingAddress it is the write of `v` to `a` and ends in AwaitingAddress; from AwaitingData its first
byte is the data and its second the next address (41_protocol_sequencer.md section 4; granted back to back, log entry 1).
The value `pending_address` keeps in AwaitingAddress is the spec's decision D12 (log entry 6). -/
def Obligations.PairWritesItsValueOrShiftsByOne : Prop :=
  ∀ (a v : Byte) (s : State),
    (s.awaitingData = false →
      (∀ h : a.toNat < Config.N,
        exec (.pair a v) s =
          .next { s with
            x := s.x.set a.toNat v h, notify := if a = 3 then true else s.notify
            awaitingData := false, pendingAddress := a, resp := .none }) ∧
      (Config.N ≤ a.toNat →
        exec (.pair a v) s = .next { s with awaitingData := false, pendingAddress := a, resp := .none })) ∧
    (s.awaitingData = true →
      (∀ h : s.pendingAddress.toNat < Config.N,
        exec (.pair a v) s =
          .next { s with
            x := s.x.set s.pendingAddress.toNat a h
            notify := if s.pendingAddress = 3 then true else s.notify
            awaitingData := true, pendingAddress := v, resp := .none }) ∧
      (Config.N ≤ s.pendingAddress.toNat →
        exec (.pair a v) s = .next { s with awaitingData := true, pendingAddress := v, resp := .none }))

/-! ### Frames and laws of the bank -/

/-- What an operation does not write stays: the sequencer but for received bytes and INIT; the flag but for writes at the
active address, the acknowledgment and INIT; the registers but for operations that write the bank and INIT. -/
def Obligations.OperationsWriteOnlyTheStateTheirRulesName : Prop :=
  ∀ (i : Instr) (s t : State), exec i s = .next t → i ≠ .init →
    ((∀ b, i ≠ .onByteReceived b) → (∀ a v, i ≠ .pair a v) →
      t.awaitingData = s.awaitingData ∧ t.pendingAddress = s.pendingAddress) ∧
    (i ≠ .getAndAckChange → (∀ v, (Config.activeAddr, v) ∉ writesOf s.seq i) → t.notify = s.notify) ∧
    (writesOf s.seq i = [] → t.x = s.x)

/-- Every address outside those an operation writes reads as before, INIT apart; the addresses are computed by the
operands' own functions (20_memory.md section 3; 40_register_bank.md section 3). -/
def Obligations.OnlyTheWrittenAddressesChange : Prop :=
  ∀ (i : Instr) (s t : State), exec i s = .next t → i ≠ .init →
    ∀ b : Byte, b ∉ (writesOf s.seq i).map Prod.fst → memRead b t = memRead b s

/-- No operation changes the ports, the environment's coming steps, the grant line or the model's counters
(10_state.md section 1; 00_scope.md section 6). -/
def Obligations.OperationsLeaveTheSurroundings : Prop :=
  ∀ (i : Instr) (s t : State), exec i s = .next t → SameSurroundings s t

/-- Out of range a READ returns 0x00 and a WRITE changes nothing. -/
def Obligations.OutOfRangeAccessesHaveNoEffect : Prop :=
  ∀ (a v : Byte) (s : State), 4 ≤ a.toNat →
    (∃ t, exec (.read a) s = .next t ∧ t.resp = .rdata 0x00) ∧
    (∃ t, exec (.write a v) s = .next t ∧ t.x = s.x ∧ t.notify = s.notify ∧ t.seq = s.seq)

/-- A value written to a valid address is read back, whatever is granted in between but a write to that address and INIT
(40_register_bank.md section 2, the law of WRITE). -/
def Obligations.WrittenValueIsReadBackUntilOverwritten : Prop :=
  ∀ (a v : Byte) (s : State) (ops : List Instr), a.toNat < Config.N → .init ∉ ops →
    a ∉ (writesOfAll s.seq ops).map Prod.fst →
    ∃ t u, applyOps (.write a v :: ops) s = .next t ∧ exec (.read a) t = .next u ∧ u.resp = .rdata v

/-- The setters are WRITE at fixed addresses, and a pair from AwaitingAddress leaves the registers and the flag of a WRITE
(30_encoding.md section 5). That exec of a pair runs its two bytes with nothing between them is log entry 1. -/
def Obligations.SettersAndPairsRouteToWrite : Prop :=
  ∀ (s : State) (v : Byte),
    exec (.setDigitalSnapshot v) s = exec (.write 0 v) s ∧ exec (.setAnalogChannel 0 v) s = exec (.write 1 v) s ∧
    exec (.setAnalogChannel 1 v) s = exec (.write 2 v) s ∧ exec (.setActive v) s = exec (.write 3 v) s ∧
    ∀ a : Byte, s.seq = .awaitingAddress →
      ∃ t u, exec (.pair a v) s = .next t ∧ exec (.write a v) s = .next u ∧ t.x = u.x ∧ t.notify = u.notify ∧
        t.seq = .awaitingAddress

/-! ### The notification flag -/

/-- The flag is set by a step exactly when the step grants an operation that writes the active address. -/
def Obligations.FlagIsSetExactlyByWritesOfTheActiveAddress : Prop :=
  ∀ s t : State, step s = .next t →
    ((∃ i v, granted s = some i ∧ (Config.activeAddr, v) ∈ writesOf s.seq i) → t.notify = true) ∧
    (s.notify = false → t.notify = true →
      ∃ i v, granted s = some i ∧ (Config.activeAddr, v) ∈ writesOf s.seq i)

/-- A set flag is cleared by a step exactly when the step grants GET_AND_ACK_CHANGE or INIT or is a power-on reset; and
a notification cleared by INIT is never delivered. -/
def Obligations.FlagIsClearedExactlyByAckInitOrReset : Prop :=
  (∀ s t : State, step s = .next t → s.notify = true →
    (t.notify = false ↔
      s.input.rst = true ∨ granted s = some .getAndAckChange ∨ granted s = some .init)) ∧
  (∀ (s t u : State) (ops : List Instr), activeWrites (cursorAfter s.seq .init) ops = [] →
    applyOps (.init :: ops) s = .next t → exec .getAndAckChange t = .next u → u.resp = .chg none)

/-- Writes of the active address with no acknowledgment (and no INIT) between them, by any path and with any other
operations among them, are delivered as one `Some` with the last value; the next acknowledgment returns `None`. -/
def Obligations.CoalescedWritesGiveOneNotificationWithTheLastValue : Prop :=
  ∀ (s : State) (ops : List Instr) (v : Byte), .init ∉ ops → .getAndAckChange ∉ ops →
    (activeWrites s.seq ops).getLast? = some v →
    ∃ t u w, applyOps ops s = .next t ∧ exec .getAndAckChange t = .next u ∧ u.resp = .chg (some v) ∧
      exec .getAndAckChange u = .next w ∧ w.resp = .chg none

/-- No more acknowledgments deliver a value than there are writes of the active address, one pending at the start counted
(42_change_notifier.md section 3). -/
def Obligations.DeliveriesAreAtMostTheActiveWrites : Prop :=
  ∀ (ops : List Instr) (s : State),
    ((responses ops s).filter Response.chgValid).length ≤
      (activeWrites s.seq ops).length + if s.notify then 1 else 0

/-! ### The sequencer -/

/-- The cursor after any step follows the transition table, whatever was granted (41_protocol_sequencer.md section 2). The
INIT row is the spec's decision D5 (log entry 7); the row of a whole pair granted in one step is not in the spec's table
and is log entry 1. -/
def Obligations.CursorFollowsTheTransitionTable : Prop :=
  ∀ s t : State, step s = .next t →
    t.seq =
      if s.input.rst then .awaitingAddress
      else
        match granted s with
        | none => s.seq
        | some (.onByteReceived b) => cursorAfterByte b s.seq
        | some (.pair a v) => cursorAfterByte v (cursorAfterByte a s.seq)
        | some .init => .awaitingAddress
        | some (.read _) => s.seq
        | some (.write _ _) => s.seq
        | some (.setDigitalSnapshot _) => s.seq
        | some (.setAnalogChannel _ _) => s.seq
        | some (.setActive _) => s.seq
        | some .getAndAckChange => s.seq

/-- After any operations but INIT from AwaitingAddress, the cursor is decided by the number of bytes received and the last
of them; no register, flag or other operation has a say (20_memory.md section 11; 41_protocol_sequencer.md sections 2, 3). -/
def Obligations.CursorIsDecidedByTheBytesAlone : Prop :=
  ∀ (ops : List Instr) (s t : State), s.seq = .awaitingAddress → .init ∉ ops → applyOps ops s = .next t →
    t.seq = cursorOfBytes (bytesOf ops)

/-- A byte stream from AwaitingAddress, of any length and whatever the master meant, has the effect on registers and flag
of one WRITE for each two bytes, paired by count, and an odd byte stays latched. -/
def Obligations.ByteStreamsArePairedByCountAlone : Prop :=
  ∀ (bs : List Byte) (s : State), s.seq = .awaitingAddress →
    ∃ t u, applyOps (Instr.bytes bs) s = .next t ∧
      applyOps ((pairsOf bs).map fun w => .write w.1 w.2) s = .next u ∧
      t.x = u.x ∧ t.notify = u.notify ∧ t.seq = cursorOfBytes bs

/-- Operations of other agents between the two bytes of a pair, INIT apart, act on the bank and leave the pair: its value
is written to its address after them (41_protocol_sequencer.md section 4; 40_register_bank.md section 1). -/
def Obligations.PairSurvivesOperationsBetweenItsBytes : Prop :=
  ∀ (s : State) (a v : Byte) (ops : List Instr), s.seq = .awaitingAddress →
    (∀ i ∈ ops, i.port ≠ .byte ∧ i.port ≠ .init) →
    ∃ t u, applyOps ops s = .next t ∧
      applyOps (.onByteReceived a :: (ops ++ [.onByteReceived v])) s = .next u ∧
      u.x = (memWrite a v t).x ∧ u.notify = (memWrite a v t).notify ∧ u.seq = .awaitingAddress

/-- While no data byte is awaited the value of `pending_address` is unobservable: it changes no response, no register, not
the flag and not the sequencer, now or later (10_state.md section 5). -/
def Obligations.PendingAddressIsUnobservableInAwaitingAddress : Prop :=
  ∀ (s : State) (p : Byte) (ops : List Instr), s.awaitingData = false →
    responses ops { s with pendingAddress := p } = responses ops s ∧
    ∃ t t', applyOps ops s = .next t ∧ applyOps ops { s with pendingAddress := p } = .next t' ∧
      t'.x = t.x ∧ t'.notify = t.notify ∧ t'.seq = t.seq

/-! ### Serial order and the arbiter -/

/-- A run's granted operations, applied one after the other in the order granted, give the run's state and its responses;
and a READ returns the latest write to its address since reset or INIT, 0x00 if there is none or the address is out of
range: for operations in serial order, and for any run from the reset values, with resets inside it or not. -/
def Obligations.RunsAreSerialAndReadsReturnTheLatestWrite : Prop :=
  (∀ (k : Nat) (s t : State), (∀ e ∈ s.inputs, e.rst = false) → Sys2Proof.core.run k s = .next t →
    (∃ u, applyOps (grantedOps k s) s = .next u ∧ SameCore u t) ∧
      responses (grantedOps k s) s = grantedResponses k s) ∧
  (∀ (ops : List Instr) (a : Byte), ∃ t u, applyOps ops State.reset = .next t ∧ exec (.read a) t = .next u ∧
    u.resp = .rdata ((ops.foldl History.after History.start).read a)) ∧
  (∀ (s : State) (ops : List Instr) (a : Byte), ∃ t u, applyOps (.init :: ops) s = .next t ∧
    exec (.read a) t = .next u ∧
    u.resp = .rdata (((.init :: ops).foldl History.after ⟨s.seq, []⟩).read a)) ∧
  (∀ (k : Nat) (s t : State) (a : Byte), SameCore State.reset s → Sys2Proof.core.run k s = .next t →
    ∃ u, exec (.read a) t = .next u ∧ u.resp = .rdata ((History.start.run k s).read a))

/-- If anything is pending exactly one port is granted, one on which a request is pending; if nothing is, none
(20_memory.md section 8, the spec's decision D4). That what a step presents counts as pending in that step is log
entry 19. -/
def Obligations.ExactlyOnePendingRequestIsGranted : Prop :=
  ∀ s t : State, s.input.rst = false → step s = .next t →
    (t.gnt = none ↔ ∀ p, (sample s).ports.req p = false) ∧ ∀ p, t.gnt = some p → (sample s).ports.req p = true

/-- No request is dropped, duplicated, altered or reordered on its port: what waited and what was presented, in order, is
what was granted followed by what still waits (20_memory.md sections 7 and 8, the spec's decision D4; log entry 3). -/
def Obligations.RequestsKeepTheirPortsOrderAndNoneIsLost : Prop :=
  ∀ s t : State, s.input.rst = false → step s = .next t → ∀ p : Port,
    (∃ k, t.gnt = some p ∧ granted s = some (decode k) ∧
      k :: t.ports.words p = s.ports.words p ++ s.arrivalsOn p) ∨
    (t.gnt ≠ some p ∧ t.ports.words p = s.ports.words p ++ s.arrivalsOn p)

/-- The order among ports is open: whichever port has a word on it, the arbiter's free numbers can be such that it is the
one granted (20_memory.md section 8, the spec's decision D4; log entry 2). -/
def Obligations.EveryPendingRequestCanBeTheOneGranted : Prop :=
  ∀ (s : State) (p : Port), s.input.rst = false → s.arrivals = [] → s.ports.words p ≠ [] →
    ∃ q : Ports, (∀ p', q.words p' = s.ports.words p') ∧
      ∃ t, step { s with ports := q } = .next t ∧ t.gnt = some p

/-- The grant goes to a smallest number: no pending request has a smaller one; what is not granted stays pending under its
number; and what becomes pending in a step has a number not smaller than the clock (20_memory.md section 8, the spec's
decision D4). The numbers are the model's (log entry 2), and a request can be granted in the step that presents it by log
entry 19. -/
def Obligations.TheGrantGoesToASmallestNumber : Prop :=
  (∀ (s t : State) (p p' : Port) (r : Request), s.input.rst = false → step s = .next t → t.gnt = some p' →
    (sample s).ports.pending p = some r →
    (∃ r', (sample s).ports.pending p' = some r' ∧ r'.due ≤ r.due) ∧
      (p ≠ p' → t.ports.pending p = some r)) ∧
  (∀ (s : State) (p : Port) (r : Request), (sample s).ports.pending p = some r →
    s.ports.pending p = some r ∨ (s.ports.pending p = none ∧ s.tick ≤ r.due))

/-- A pending request waits unchanged and is granted, and how long it waits is bounded by its own number, the clock and the
number of ports alone, whatever the environment presents meanwhile: until the clock has passed its number and, from then
on, at most one grant for each of the four other ports (20_memory.md section 8; no starvation is the spec's decision D4).
The numbers are the model's (log entry 2), as is the environment's list (log entry 3). -/
def Obligations.EveryPendingRequestIsGrantedByItsNumber : Prop :=
  ∀ (s : State) (p : Port) (r : Request), s.ports.pending p = some r →
    (∀ e ∈ s.inputs.take (r.due + 1 - s.tick + 5), e.rst = false) →
    ∃ (k : Nat) (t u : State), k ≤ r.due + 1 - s.tick + 4 ∧ Sys2Proof.core.run k s = .next t ∧
      t.ports.pending p = some r ∧ step t = .next u ∧ u.gnt = some p ∧ granted t = some (decode r.word)

/-- Two requests pending in the same step on two ports have exactly the outcomes, in state and responses, of the two serial
orders: under all numbers one of the two, and each of the two under some (20_memory.md section 8). The order is open by the
spec's decision D4 (log entry 2). A whole pair word pending beside another request is covered as one operation, which is
log entry 1 (the spec would let the other operation in between its bytes), and a word on a port that does not carry it is
applied, log entry 10. -/
def Obligations.SimultaneousRequestsHaveExactlyTheSerialOutcomes : Prop :=
  ∀ (s : State) (p q : Port) (k l : Packet), p ≠ q → s.inputs = [] →
    (∀ m n, RunsAs 2 (s.withTwoPending p k m [] q l n) [decode k, decode l] ∨
      RunsAs 2 (s.withTwoPending p k m [] q l n) [decode l, decode k]) ∧
    (∃ m n, RunsAs 2 (s.withTwoPending p k m [] q l n) [decode k, decode l]) ∧
    (∃ m n, RunsAs 2 (s.withTwoPending p k m [] q l n) [decode l, decode k])

/-- A write of `w` to the active register and an acknowledgment in the same step: the four outcomes by initial flag and by
order, no other under any numbers, and each order under some (60_exceptions.md section 3; the numbers are log entry 2). -/
def Obligations.AcknowledgmentRacesAWriteWithFourOutcomes : Prop :=
  ∀ (s : State) (p : Port) (w : Byte) (k l : Packet),
    (p = .wr ∧ (decode k = .write 3 w ∨ decode k = .setActive w)) ∨
      (p = .byte ∧ s.seq = .awaitingData 3 ∧ decode k = .onByteReceived w) →
    decode l = .getAndAckChange → s.inputs = [] →
    (∀ m n, WriteThenAck (s.withTwoPending p k m [] .ack l n) p w ∨
      AckThenWrite (s.withTwoPending p k m [] .ack l n) p w) ∧
    (∃ m n, WriteThenAck (s.withTwoPending p k m [] .ack l n) p w) ∧
    (∃ m n, AckThenWrite (s.withTwoPending p k m [] .ack l n) p w)

/-! ### The invariant -/

/-- The invariant holds at reset: each port holds only operations it carries, and the response lines are those of the port
granted (30_encoding.md sections 1 and 3; the output lines at reset are log entry 11). -/
def Obligations.PortInvariantHoldsAtReset : Prop := State.reset.Inv

/-- Every step keeps the invariant: each port holds only operations it carries, and the response lines are those of the
port granted (30_encoding.md sections 1 and 3, the spec's decisions D3, D11). That a step without a grant, or one that
grants an operation without a response, shows no response is log entry 5. -/
def Obligations.EveryStepKeepsThePortInvariant : Prop :=
  ∀ s t : State, s.Inv → step s = .next t → t.Inv

/-! ### Byte pairs at the ports, and words that wait -/

/-- What a step brings to a port goes behind what was there, each presented operation as what it is made of: a pair as its
address byte and then its value byte, and nothing else becomes more than one operation. The sequencer's stream is what was
on `P_BYTE` and then the bytes presented, in order, none dropped and none repeated. And a pair that is presented alone has
its first byte granted in that step, with its second byte left on `P_BYTE` (30_encoding.md section 5; 20_memory.md
section 7; 41_protocol_sequencer.md section 4). That the environment can present a whole pair, and that it is split so, is
log entry 1; that it is granted in the step that presents it, log entry 19. -/
def Obligations.PresentedPairsArriveAsTheirTwoBytesInOrder : Prop :=
  (∀ (s : State) (p : Port),
    ((sample s).ports.words p).map decode =
      (s.ports.words p).map decode ++
        ((s.input.present.map decode).flatMap Instr.expand).filter fun i => decide (i.port = p)) ∧
  (∀ (s : State) (a v : Byte) (before after : List Packet),
    s.input.present = before ++ .pair (pairWord a v) :: after →
    ∃ l r, ((sample s).ports.words .byte).map decode = l ++ .onByteReceived a :: .onByteReceived v :: r ∧
      bytesOf l = bytesOf ((s.ports.words .byte).map decode) ++ bytesOf (before.map decode) ∧
      bytesOf r = bytesOf (after.map decode)) ∧
  (∀ (s : State) (a v : Byte), s.input = ⟨false, [.pair (pairWord a v)]⟩ → s.ports = Ports.empty →
    ∃ t, step s = .next t ∧ granted s = some (.onByteReceived a) ∧ t.gnt = some .byte ∧
      (t.ports.words .byte).map decode = [.onByteReceived v] ∧ ∀ p, p ≠ .byte → t.ports.words p = [])

/-- A pair of bytes on `P_BYTE` and a request pending on another port have exactly the outcomes, in state and responses, of
the three serial orders that keep the bytes in order: under all numbers one of the three, and each of them under some
(41_protocol_sequencer.md section 4; 20_memory.md sections 7 and 8). The order is open by the spec's decision D4 (log
entry 2); a word on a port that does not carry it is applied, log entry 10. -/
def Obligations.PairOfBytesBesideAnotherRequestHasThreeSerialOutcomes : Prop :=
  ∀ (s : State) (a v : Byte) (q : Port) (l : Packet), q ≠ .byte → s.inputs = [] →
    let z (m n : Nat) : State :=
      s.withTwoPending .byte (encode (.onByteReceived a)) m [encode (.onByteReceived v)] q l n
    (∀ m n, RunsAs 3 (z m n) [.onByteReceived a, .onByteReceived v, decode l] ∨
      RunsAs 3 (z m n) [.onByteReceived a, decode l, .onByteReceived v] ∨
      RunsAs 3 (z m n) [decode l, .onByteReceived a, .onByteReceived v]) ∧
    (∃ m n, RunsAs 3 (z m n) [.onByteReceived a, .onByteReceived v, decode l]) ∧
    (∃ m n, RunsAs 3 (z m n) [.onByteReceived a, decode l, .onByteReceived v]) ∧
    (∃ m n, RunsAs 3 (z m n) [decode l, .onByteReceived a, .onByteReceived v])

/-- Every word on a port is granted after finitely many steps, in the order presented: the operations granted on the port
begin with those that were on it (20_memory.md sections 7 and 8; no starvation is the spec's decision D4, in the form of
log entries 2 and 3). -/
def Obligations.EveryWaitingWordIsGrantedInOrder : Prop :=
  ∀ (s : State) (p : Port), (∀ e ∈ s.inputs, e.rst = false) →
    ∃ (k : Nat) (t : State) (later : List Instr), Sys2Proof.core.run k s = .next t ∧
      grantedOnPort p k s = (s.ports.words p).map decode ++ later
end

