-- ==== Sys2Proof/Laws/State.lean ====
section
/-! SUPPORT. One lemma per field for each named update of the state, true by rfl, so that no proof unfolds a record update. -/

namespace Sys2Proof.Machine

section respond
variable (r : Response) (s : State)
@[simp] theorem respond_x : (respond r s).x = s.x := rfl
@[simp] theorem respond_notify : (respond r s).notify = s.notify := rfl
@[simp] theorem respond_awaitingData : (respond r s).awaitingData = s.awaitingData := rfl
@[simp] theorem respond_pendingAddress : (respond r s).pendingAddress = s.pendingAddress := rfl
@[simp] theorem respond_ports : (respond r s).ports = s.ports := rfl
@[simp] theorem respond_inputs : (respond r s).inputs = s.inputs := rfl
@[simp] theorem respond_gnt : (respond r s).gnt = s.gnt := rfl
@[simp] theorem respond_resp : (respond r s).resp = r := rfl
@[simp] theorem respond_tick : (respond r s).tick = s.tick := rfl
@[simp] theorem respond_serial : (respond r s).serial = s.serial := rfl
@[simp] theorem respond_seq : (respond r s).seq = s.seq := rfl
end respond

section latchAddress
variable (b : Byte) (s : State)
@[simp] theorem latchAddress_x : (latchAddress b s).x = s.x := rfl
@[simp] theorem latchAddress_notify : (latchAddress b s).notify = s.notify := rfl
@[simp] theorem latchAddress_awaitingData : (latchAddress b s).awaitingData = true := rfl
@[simp] theorem latchAddress_pendingAddress : (latchAddress b s).pendingAddress = b := rfl
@[simp] theorem latchAddress_ports : (latchAddress b s).ports = s.ports := rfl
@[simp] theorem latchAddress_inputs : (latchAddress b s).inputs = s.inputs := rfl
@[simp] theorem latchAddress_gnt : (latchAddress b s).gnt = s.gnt := rfl
@[simp] theorem latchAddress_resp : (latchAddress b s).resp = s.resp := rfl
@[simp] theorem latchAddress_tick : (latchAddress b s).tick = s.tick := rfl
@[simp] theorem latchAddress_serial : (latchAddress b s).serial = s.serial := rfl
@[simp] theorem latchAddress_seq : (latchAddress b s).seq = .awaitingData b := rfl
end latchAddress

section closePair
variable (s : State)
@[simp] theorem closePair_x : (closePair s).x = s.x := rfl
@[simp] theorem closePair_notify : (closePair s).notify = s.notify := rfl
@[simp] theorem closePair_awaitingData : (closePair s).awaitingData = false := rfl
@[simp] theorem closePair_pendingAddress : (closePair s).pendingAddress = s.pendingAddress := rfl
@[simp] theorem closePair_ports : (closePair s).ports = s.ports := rfl
@[simp] theorem closePair_inputs : (closePair s).inputs = s.inputs := rfl
@[simp] theorem closePair_gnt : (closePair s).gnt = s.gnt := rfl
@[simp] theorem closePair_resp : (closePair s).resp = s.resp := rfl
@[simp] theorem closePair_tick : (closePair s).tick = s.tick := rfl
@[simp] theorem closePair_serial : (closePair s).serial = s.serial := rfl
@[simp] theorem closePair_seq : (closePair s).seq = .awaitingAddress := rfl
end closePair

section ackFlag
variable (s : State)
@[simp] theorem ackFlag_x : (ackFlag s).x = s.x := rfl
@[simp] theorem ackFlag_notify : (ackFlag s).notify = false := rfl
@[simp] theorem ackFlag_awaitingData : (ackFlag s).awaitingData = s.awaitingData := rfl
@[simp] theorem ackFlag_pendingAddress : (ackFlag s).pendingAddress = s.pendingAddress := rfl
@[simp] theorem ackFlag_ports : (ackFlag s).ports = s.ports := rfl
@[simp] theorem ackFlag_inputs : (ackFlag s).inputs = s.inputs := rfl
@[simp] theorem ackFlag_gnt : (ackFlag s).gnt = s.gnt := rfl
@[simp] theorem ackFlag_resp : (ackFlag s).resp = s.resp := rfl
@[simp] theorem ackFlag_tick : (ackFlag s).tick = s.tick := rfl
@[simp] theorem ackFlag_serial : (ackFlag s).serial = s.serial := rfl
@[simp] theorem ackFlag_seq : (ackFlag s).seq = s.seq := rfl
end ackFlag

section initCore
variable (c : Bool) (s : State)
@[simp] theorem initCore_x : (initCore c s).x = Vector.replicate Config.N Config.resetValue := rfl
@[simp] theorem initCore_notify : (initCore c s).notify = false := rfl
@[simp] theorem initCore_awaitingData : (initCore c s).awaitingData = if c then false else s.awaitingData := rfl
@[simp] theorem initCore_pendingAddress : (initCore c s).pendingAddress = if c then 0 else s.pendingAddress := rfl
@[simp] theorem initCore_ports : (initCore c s).ports = s.ports := rfl
@[simp] theorem initCore_inputs : (initCore c s).inputs = s.inputs := rfl
@[simp] theorem initCore_gnt : (initCore c s).gnt = s.gnt := rfl
@[simp] theorem initCore_resp : (initCore c s).resp = s.resp := rfl
@[simp] theorem initCore_tick : (initCore c s).tick = s.tick := rfl
@[simp] theorem initCore_serial : (initCore c s).serial = s.serial := rfl
end initCore

section advance
variable (s : State)
@[simp] theorem advance_x : (advance s).x = s.x := rfl
@[simp] theorem advance_notify : (advance s).notify = s.notify := rfl
@[simp] theorem advance_awaitingData : (advance s).awaitingData = s.awaitingData := rfl
@[simp] theorem advance_pendingAddress : (advance s).pendingAddress = s.pendingAddress := rfl
@[simp] theorem advance_ports : (advance s).ports = s.ports := rfl
@[simp] theorem advance_inputs : (advance s).inputs = s.inputs.tail := rfl
@[simp] theorem advance_gnt : (advance s).gnt = s.gnt := rfl
@[simp] theorem advance_resp : (advance s).resp = s.resp := rfl
@[simp] theorem advance_tick : (advance s).tick = s.tick + 1 := rfl
@[simp] theorem advance_serial : (advance s).serial = s.serial := rfl
end advance

section presentOne
variable (k : Packet) (s : State)
@[simp] theorem presentOne_x : (presentOne k s).x = s.x := rfl
@[simp] theorem presentOne_notify : (presentOne k s).notify = s.notify := rfl
@[simp] theorem presentOne_awaitingData : (presentOne k s).awaitingData = s.awaitingData := rfl
@[simp] theorem presentOne_pendingAddress : (presentOne k s).pendingAddress = s.pendingAddress := rfl
@[simp] theorem presentOne_ports : (presentOne k s).ports = s.ports.enqueue (decode k).port k := rfl
@[simp] theorem presentOne_inputs : (presentOne k s).inputs = s.inputs := rfl
@[simp] theorem presentOne_gnt : (presentOne k s).gnt = s.gnt := rfl
@[simp] theorem presentOne_resp : (presentOne k s).resp = s.resp := rfl
@[simp] theorem presentOne_tick : (presentOne k s).tick = s.tick := rfl
@[simp] theorem presentOne_serial : (presentOne k s).serial = s.serial := rfl
end presentOne

/-! `offer` has its case split in it; the fields it never reaches: -/
section offer
variable (p : Port) (s : State)
@[simp] theorem offer_x : (offer p s).x = s.x := by unfold offer; (repeat' split) <;> rfl
@[simp] theorem offer_notify : (offer p s).notify = s.notify := by unfold offer; (repeat' split) <;> rfl
@[simp] theorem offer_awaitingData : (offer p s).awaitingData = s.awaitingData := by unfold offer; (repeat' split) <;> rfl
@[simp] theorem offer_pendingAddress : (offer p s).pendingAddress = s.pendingAddress := by
  unfold offer; (repeat' split) <;> rfl
@[simp] theorem offer_inputs : (offer p s).inputs = s.inputs := by unfold offer; (repeat' split) <;> rfl
@[simp] theorem offer_gnt : (offer p s).gnt = s.gnt := by unfold offer; (repeat' split) <;> rfl
@[simp] theorem offer_resp : (offer p s).resp = s.resp := by unfold offer; (repeat' split) <;> rfl
@[simp] theorem offer_tick : (offer p s).tick = s.tick := by unfold offer; (repeat' split) <;> rfl
end offer

section grant
variable (p : Port) (s : State)
@[simp] theorem grant_x : (grant p s).x = s.x := rfl
@[simp] theorem grant_notify : (grant p s).notify = s.notify := rfl
@[simp] theorem grant_awaitingData : (grant p s).awaitingData = s.awaitingData := rfl
@[simp] theorem grant_pendingAddress : (grant p s).pendingAddress = s.pendingAddress := rfl
@[simp] theorem grant_ports : (grant p s).ports = s.ports.remove p := rfl
@[simp] theorem grant_inputs : (grant p s).inputs = s.inputs := rfl
@[simp] theorem grant_gnt : (grant p s).gnt = some p := rfl
@[simp] theorem grant_resp : (grant p s).resp = s.resp := rfl
@[simp] theorem grant_tick : (grant p s).tick = s.tick := rfl
@[simp] theorem grant_serial : (grant p s).serial = s.serial := rfl
@[simp] theorem grant_seq : (grant p s).seq = s.seq := rfl
end grant

section noGrant
variable (s : State)
@[simp] theorem noGrant_x : (noGrant s).x = s.x := rfl
@[simp] theorem noGrant_notify : (noGrant s).notify = s.notify := rfl
@[simp] theorem noGrant_awaitingData : (noGrant s).awaitingData = s.awaitingData := rfl
@[simp] theorem noGrant_pendingAddress : (noGrant s).pendingAddress = s.pendingAddress := rfl
@[simp] theorem noGrant_ports : (noGrant s).ports = s.ports := rfl
@[simp] theorem noGrant_inputs : (noGrant s).inputs = s.inputs := rfl
@[simp] theorem noGrant_gnt : (noGrant s).gnt = none := rfl
@[simp] theorem noGrant_resp : (noGrant s).resp = .none := rfl
@[simp] theorem noGrant_tick : (noGrant s).tick = s.tick := rfl
@[simp] theorem noGrant_serial : (noGrant s).serial = s.serial := rfl
@[simp] theorem noGrant_seq : (noGrant s).seq = s.seq := rfl
end noGrant

section powerOnReset
variable (s : State)
@[simp] theorem powerOnReset_x : (powerOnReset s).x = Vector.replicate Config.N Config.resetValue := rfl
@[simp] theorem powerOnReset_notify : (powerOnReset s).notify = false := rfl
@[simp] theorem powerOnReset_awaitingData : (powerOnReset s).awaitingData = false := rfl
@[simp] theorem powerOnReset_pendingAddress : (powerOnReset s).pendingAddress = 0 := rfl
@[simp] theorem powerOnReset_ports : (powerOnReset s).ports = Ports.empty := rfl
@[simp] theorem powerOnReset_inputs : (powerOnReset s).inputs = s.inputs.tail := rfl
@[simp] theorem powerOnReset_gnt : (powerOnReset s).gnt = none := rfl
@[simp] theorem powerOnReset_resp : (powerOnReset s).resp = .none := rfl
@[simp] theorem powerOnReset_tick : (powerOnReset s).tick = s.tick + 1 := rfl
@[simp] theorem powerOnReset_serial : (powerOnReset s).serial = s.serial := rfl
end powerOnReset

/-! `memWrite` has its case split in it; the fields it never reaches: -/
section memWrite
variable (a v : Byte) (s : State)
@[simp] theorem memWrite_awaitingData : (memWrite a v s).awaitingData = s.awaitingData := by
  unfold memWrite; split <;> rfl
@[simp] theorem memWrite_pendingAddress : (memWrite a v s).pendingAddress = s.pendingAddress := by
  unfold memWrite; split <;> rfl
@[simp] theorem memWrite_ports : (memWrite a v s).ports = s.ports := by unfold memWrite; split <;> rfl
@[simp] theorem memWrite_inputs : (memWrite a v s).inputs = s.inputs := by unfold memWrite; split <;> rfl
@[simp] theorem memWrite_gnt : (memWrite a v s).gnt = s.gnt := by unfold memWrite; split <;> rfl
@[simp] theorem memWrite_resp : (memWrite a v s).resp = s.resp := by unfold memWrite; split <;> rfl
@[simp] theorem memWrite_tick : (memWrite a v s).tick = s.tick := by unfold memWrite; split <;> rfl
@[simp] theorem memWrite_serial : (memWrite a v s).serial = s.serial := by unfold memWrite; split <;> rfl
@[simp] theorem memWrite_seq : (memWrite a v s).seq = s.seq := by simp [State.seq]
end memWrite

end Sys2Proof.Machine
end

