-- ==== Sys2Proof/Laws/Ops.lean ====
section
/-! SUPPORT. One specification lemma for each shared operation over the registers, the flag and the sequencer; every
meaning's result; and what `exec` can do at all. -/

namespace Sys2Proof.Machine

/-! ### Addresses and channels -/

theorem validAddr_iff (a : Byte) : validAddr a = true ↔ a.toNat < Config.N := by simp [validAddr]

theorem analogAddress_zero : analogAddress 0 = some 1 := by decide

theorem analogAddress_one : analogAddress 1 = some 2 := by decide

theorem analogAddress_of_le {c : Byte} (h : 2 ≤ c.toNat) : analogAddress c = none :=
  if_neg (Nat.not_lt.mpr h)

/-- A channel selects address 1 or 2 or nothing, never the active address (R104). -/
theorem analogAddress_cases (c : Byte) :
    (c = 0 ∧ analogAddress c = some Config.analog0Addr) ∨ (c = 1 ∧ analogAddress c = some Config.analog1Addr) ∨
      (2 ≤ c.toNat ∧ analogAddress c = none) := by
  by_cases h : 2 ≤ c.toNat
  · exact .inr (.inr ⟨h, analogAddress_of_le h⟩)
  · have hc : c = 0 ∨ c = 1 := by bv_omega
    rcases hc with rfl | rfl
    · exact .inl ⟨rfl, rfl⟩
    · exact .inr (.inl ⟨rfl, rfl⟩)

/-! ### `MemRead` and `MemWrite` -/

theorem memRead_of_lt {a : Byte} {s : State} (h : a.toNat < Config.N) : memRead a s = s.x[a.toNat] := by
  simp only [memRead, dif_pos h]

theorem memRead_of_le {a : Byte} {s : State} (h : Config.N ≤ a.toNat) : memRead a s = Config.oorRead := by
  simp only [memRead, dif_neg (Nat.not_lt.mpr h)]

/-- `MemRead` reads the bank and nothing else. -/
theorem memRead_congr {s t : State} (h : t.x = s.x) (a : Byte) : memRead a t = memRead a s := by
  simp [memRead, h]

theorem memWrite_of_lt {a v : Byte} {s : State} (h : a.toNat < Config.N) :
    memWrite a v s = { s with x := s.x.set a.toNat v h, notify := notifyAfterWrite a s.notify } := by
  simp only [memWrite, dif_pos h]

theorem memWrite_of_le {a v : Byte} {s : State} (h : Config.N ≤ a.toNat) : memWrite a v s = s := by
  simp only [memWrite, dif_neg (Nat.not_lt.mpr h)]

/-- Read after write: the value at the written address, the old value everywhere else, the sentinel out of range
(R44, R45, R109). -/
theorem memRead_memWrite (a b v : Byte) (s : State) :
    memRead b (memWrite a v s) = if b = a ∧ a.toNat < Config.N then v else memRead b s := by
  by_cases ha : a.toNat < Config.N
  · rw [memWrite_of_lt ha]
    by_cases hb : b.toNat < Config.N
    · rw [memRead_of_lt hb, memRead_of_lt hb]
      by_cases hab : b = a
      · subst hab; simp [hb]
      · have hne : a.toNat ≠ b.toNat := fun h => hab (BitVec.eq_of_toNat_eq h.symm)
        simp [hab, hne]
    · have hab : b ≠ a := fun h => hb (h ▸ ha)
      rw [memRead_of_le (Nat.not_lt.mp hb), memRead_of_le (Nat.not_lt.mp hb), if_neg (fun h => hab h.1)]
  · rw [memWrite_of_le (Nat.not_lt.mp ha), if_neg (fun h => ha h.2)]

/-- The flag after `MemWrite`: set at the active address, else kept (R45, R136). -/
theorem memWrite_notify (a v : Byte) (s : State) :
    (memWrite a v s).notify = if a = Config.activeAddr then true else s.notify := by
  by_cases ha : a.toNat < Config.N
  · rw [memWrite_of_lt ha]; rfl
  · rw [memWrite_of_le (Nat.not_lt.mp ha)]
    have hne : a ≠ Config.activeAddr := by rintro rfl; exact ha (by decide)
    rw [if_neg hne]

/-- Two states with the same bank and flag have the same bank and flag after the same `MemWrite`. -/
theorem memWrite_congr {s t : State} (hx : t.x = s.x) (hn : t.notify = s.notify) (a v : Byte) :
    (memWrite a v t).x = (memWrite a v s).x ∧ (memWrite a v t).notify = (memWrite a v s).notify := by
  refine ⟨?_, by simp [memWrite_notify, hn]⟩
  by_cases ha : a.toNat < Config.N
  · rw [memWrite_of_lt ha, memWrite_of_lt ha]; simp [hx]
  · rw [memWrite_of_le (Nat.not_lt.mp ha), memWrite_of_le (Nat.not_lt.mp ha), hx]

/-! ### The sequencer -/

/-- In AwaitingAddress a byte is latched; in AwaitingData it is written and the pair closed (R120). -/
theorem receiveByte_cases (b : Byte) (s : State) :
    (s.seq = .awaitingAddress ∧ receiveByte b s = latchAddress b s) ∨
      (∃ p, s.seq = .awaitingData p ∧ receiveByte b s = closePair (memWrite p b s)) := by
  cases h : s.awaitingData
  · exact .inl ⟨by simp [State.seq, h], by simp [receiveByte, h]⟩
  · exact .inr ⟨s.pendingAddress, by simp [State.seq, h], by simp [receiveByte, h]⟩

theorem receiveByte_seq (b : Byte) (s : State) : (receiveByte b s).seq = cursorAfterByte b s.seq := by
  rcases receiveByte_cases b s with ⟨hs, hr⟩ | ⟨p, hs, hr⟩ <;> simp [hs, hr, cursorAfterByte]

section receiveByte
variable (b : Byte) (s : State)
@[simp] theorem receiveByte_ports : (receiveByte b s).ports = s.ports := by unfold receiveByte; split <;> simp
@[simp] theorem receiveByte_inputs : (receiveByte b s).inputs = s.inputs := by unfold receiveByte; split <;> simp
@[simp] theorem receiveByte_gnt : (receiveByte b s).gnt = s.gnt := by unfold receiveByte; split <;> simp
@[simp] theorem receiveByte_resp : (receiveByte b s).resp = s.resp := by unfold receiveByte; split <;> simp
@[simp] theorem receiveByte_tick : (receiveByte b s).tick = s.tick := by unfold receiveByte; split <;> simp
@[simp] theorem receiveByte_serial : (receiveByte b s).serial = s.serial := by unfold receiveByte; split <;> simp
end receiveByte

/-! ### The meanings, as `exec` calls them -/

theorem exec_init (s : State) : exec .init s = .next (respond .none (initCore Config.initResetsCursor s)) := rfl

theorem exec_read (a : Byte) (s : State) : exec (.read a) s = .next (respond (.rdata (memRead a s)) s) := rfl

theorem exec_write (a v : Byte) (s : State) : exec (.write a v) s = .next (respond .none (memWrite a v s)) := rfl

theorem exec_setDigitalSnapshot (v : Byte) (s : State) :
    exec (.setDigitalSnapshot v) s = .next (respond .none (memWrite Config.digitalAddr v s)) := rfl

theorem exec_setAnalogChannel (c v : Byte) (s : State) :
    exec (.setAnalogChannel c v) s =
      .next (respond .none (((analogAddress c).map fun a => memWrite a v s).getD s)) := by
  cases h : analogAddress c <;> simp [exec, execSetAnalogChannel, h]

theorem exec_setActive (v : Byte) (s : State) :
    exec (.setActive v) s = .next (respond .none (memWrite Config.activeAddr v s)) := rfl

theorem exec_getAndAckChange (s : State) :
    exec .getAndAckChange s = .next (respond (ackResponse s) (ackFlag s)) := rfl

theorem exec_onByteReceived (b : Byte) (s : State) :
    exec (.onByteReceived b) s = .next (respond .none (receiveByte b s)) := rfl

theorem exec_pair (a v : Byte) (s : State) :
    exec (.pair a v) s = .next (respond .none (receiveByte v (receiveByte a s))) := rfl

end Sys2Proof.Machine
end

