-- ==== Sys2Proof/Laws/Arbiter.lean ====
section
/-! SUPPORT. What the ports, the arbiter and a step can do: one lemma per shared operation. -/

namespace Sys2Proof.Machine

/-! ### The ports -/

@[simp] theorem Ports.line_setLine_self (q : Ports) (p : Port) (l : PortState) : (q.setLine p l).line p = l := by
  cases p <;> rfl

@[simp] theorem Ports.line_setLine_of_ne (q : Ports) {p p' : Port} (l : PortState) (h : p' ≠ p) :
    (q.setLine p l).line p' = q.line p' := by
  cases p <;> cases p' <;> first | rfl | exact absurd rfl h

theorem Ports.line_setLine (q : Ports) (p p' : Port) (l : PortState) :
    (q.setLine p l).line p' = if p' = p then l else q.line p' := by
  by_cases h : p' = p
  · subst h; simp
  · simp [h]

@[simp] theorem Ports.line_empty (p : Port) : Ports.empty.line p = PortState.empty := by cases p <;> rfl

@[simp] theorem Ports.pending_empty (p : Port) : Ports.empty.pending p = none := by cases p <;> rfl

@[simp] theorem Ports.waiting_empty (p : Port) : Ports.empty.waiting p = [] := by cases p <;> rfl

@[simp] theorem Ports.words_empty (p : Port) : Ports.empty.words p = [] := by cases p <;> rfl

theorem Ports.ext_line {q q' : Ports} (h : ∀ p, q.line p = q'.line p) : q = q' := by
  have h1 := h .byte
  have h2 := h .wr
  have h3 := h .rd
  have h4 := h .ack
  have h5 := h .init
  cases q; cases q'; simp_all [Ports.line]

theorem Ports.words_of_pending {q : Ports} {p : Port} {r : Request} (h : q.pending p = some r) :
    q.words p = r.word :: q.waiting p := by simp [Ports.words, h]

theorem Ports.words_eq_nil {q : Ports} {p : Port} : q.words p = [] ↔ q.line p = PortState.empty := by
  rcases h : q.line p with ⟨pd, w⟩
  cases pd <;> simp [Ports.words, Ports.pending, Ports.waiting, h, PortState.empty]

theorem Ports.req_eq_true {q : Ports} {p : Port} : q.req p = true ↔ ∃ r, q.pending p = some r := by
  simp [Ports.req, Option.isSome_iff_exists]

theorem Ports.req_eq_false {q : Ports} {p : Port} : q.req p = false ↔ q.pending p = none := by simp [Ports.req]

/-- Enqueueing adds a word behind those of its port, and makes nothing pending. -/
theorem Ports.enqueue_spec (q : Ports) (p p' : Port) (k : Packet) :
    (q.enqueue p k).pending p' = q.pending p' ∧
      (q.enqueue p k).words p' = if p' = p then q.words p' ++ [k] else q.words p' := by
  by_cases h : p' = p
  · subst h; simp [Ports.enqueue, Ports.pending, Ports.waiting, Ports.words]
  · simp [Ports.enqueue, Ports.pending, Ports.waiting, Ports.words, h]

/-- Removing the granted request leaves what waits behind it, and the other ports. -/
theorem Ports.remove_spec (q : Ports) (p p' : Port) :
    (q.remove p).pending p' = (if p' = p then none else q.pending p') ∧ (q.remove p).waiting p' = q.waiting p' := by
  by_cases h : p' = p
  · subst h; simp [Ports.remove, Ports.pending, Ports.waiting]
  · simp [Ports.remove, Ports.pending, Ports.waiting, h]

theorem Ports.remove_words_self (q : Ports) (p : Port) : (q.remove p).words p = q.waiting p := by
  simp [Ports.words, Ports.remove_spec]

theorem Ports.remove_words_of_ne (q : Ports) {p p' : Port} (h : p' ≠ p) : (q.remove p).words p' = q.words p' := by
  simp [Ports.words, Ports.remove_spec, h]

/-! ### The arbiter -/

theorem Ports.mem_candidates (q : Ports) (p : Port) (r : Request) :
    (p, r) ∈ q.candidates ↔ q.pending p = some r := by
  have hp : p ∈ allPorts := by cases p <;> decide
  constructor
  · intro h
    obtain ⟨p', -, h⟩ := List.mem_filterMap.mp h
    obtain ⟨r', hr', h⟩ := Option.map_eq_some_iff.mp h
    cases h
    exact hr'
  · intro h
    exact List.mem_filterMap.mpr ⟨p, hp, by simp [h]⟩

/-- The chosen candidate is one of them, and no candidate has a smaller number. -/
theorem earliest_spec (c : Port × Request) (cs : List (Port × Request)) :
    earliest c cs ∈ c :: cs ∧ ∀ d ∈ c :: cs, (earliest c cs).2.due ≤ d.2.due := by
  induction cs generalizing c with
  | nil => simp [earliest]
  | cons e es ih =>
    simp only [earliest]
    split
    · rename_i hlt
      obtain ⟨hm, hle⟩ := ih e
      refine ⟨List.mem_cons_of_mem _ hm, fun d hd => ?_⟩
      rcases List.mem_cons.mp hd with rfl | hd
      · exact (hle e List.mem_cons_self).trans hlt.le
      · exact hle d hd
    · rename_i hge
      obtain ⟨hm, hle⟩ := ih c
      refine ⟨?_, fun d hd => ?_⟩
      · rcases List.mem_cons.mp hm with h | h
        · rw [h]; exact List.mem_cons_self
        · exact List.mem_cons_of_mem _ (List.mem_cons_of_mem _ h)
      · rcases List.mem_cons.mp hd with rfl | hd
        · exact hle _ List.mem_cons_self
        rcases List.mem_cons.mp hd with rfl | hd
        · exact (hle c List.mem_cons_self).trans (Nat.not_lt.mp hge)
        · exact hle d (List.mem_cons_of_mem _ hd)

/-- A grant goes to a pending request, and to one with the smallest number (R55). -/
theorem arbitrate_some {q : Ports} {p : Port} {r : Request} (h : arbitrate q = some (p, r)) :
    q.pending p = some r ∧ ∀ p' r', q.pending p' = some r' → r.due ≤ r'.due := by
  unfold arbitrate at h
  split at h
  · cases h
  · rename_i c cs hc
    obtain ⟨hm, hle⟩ := earliest_spec c cs
    rw [Option.some.inj h, ← hc] at hm hle
    exact ⟨(q.mem_candidates p r).mp hm, fun p' r' h' => hle (p', r') ((q.mem_candidates p' r').mpr h')⟩

/-- There is no grant exactly when nothing is pending (R55). -/
theorem arbitrate_none {q : Ports} : arbitrate q = none ↔ ∀ p, q.pending p = none := by
  unfold arbitrate
  split
  · rename_i hc
    constructor
    · intro _ p
      cases h : q.pending p with
      | none => rfl
      | some r => exact absurd ((q.mem_candidates p r).mpr h) (by simp [hc])
    · intro _; rfl
  · rename_i c cs hc
    constructor
    · intro h; cases h
    intro h
    have : q.pending c.1 = some c.2 := (q.mem_candidates c.1 c.2).mp (by simp [hc])
    rw [h c.1] at this
    cases this

/-! ### Presenting -/

/-- Presenting words changes the ports only. -/
theorem presentAll_frame (ks : List Packet) (s : State) :
    (presentAll ks s).x = s.x ∧ (presentAll ks s).notify = s.notify ∧
      (presentAll ks s).awaitingData = s.awaitingData ∧ (presentAll ks s).pendingAddress = s.pendingAddress ∧
      (presentAll ks s).inputs = s.inputs ∧ (presentAll ks s).tick = s.tick := by
  induction ks generalizing s with
  | nil => simp [presentAll]
  | cons k ks ih => exact ih (presentOne k s)

/-- Presenting words makes nothing pending: that is the agents' offer. -/
theorem presentAll_pending (ks : List Packet) (s : State) (p : Port) :
    (presentAll ks s).ports.pending p = s.ports.pending p := by
  induction ks generalizing s with
  | nil => rfl
  | cons k ks ih => exact (ih (presentOne k s)).trans (Ports.enqueue_spec s.ports (decode k).port p k).1

/-- Presenting words puts each behind those of its port, in order, and reorders nothing (R53). -/
theorem presentAll_words (ks : List Packet) (s : State) (p : Port) :
    (presentAll ks s).ports.words p = s.ports.words p ++ ks.filter fun k => decide ((decode k).port = p) := by
  induction ks generalizing s with
  | nil => simp [presentAll]
  | cons k ks ih =>
    have hstep : (presentAll (k :: ks) s).ports.words p = (presentAll ks (presentOne k s)).ports.words p := rfl
    rw [hstep, ih, presentOne_ports, (Ports.enqueue_spec _ _ _ _).2]
    by_cases h : p = (decode k).port
    · subst h; simp
    · have h' : (decode k).port ≠ p := fun e => h e.symm
      simp [h, h']

/-- Offering on a port leaves it as it is where something is pending or nothing waits; else its first word becomes pending,
under a number not smaller than the clock (log entry 2). -/
theorem offer_cases (p : Port) (s : State) :
    (offer p s = s ∧ (s.ports.pending p = none → s.ports.waiting p = [])) ∨
      ∃ k ks, s.ports.pending p = none ∧ s.ports.waiting p = k :: ks ∧
        offer p s =
          { s with
            ports := s.ports.setLine p ⟨some ⟨k, s.tick + Config.arbOrder s.serial⟩, ks⟩
            serial := s.serial + 1 } := by
  cases hp : s.ports.pending p with
  | some r => exact .inl ⟨by simp [offer, hp], fun h => by cases h⟩
  | none =>
    cases hw : s.ports.waiting p with
    | nil => exact .inl ⟨by simp [offer, hp, hw], fun _ => rfl⟩
    | cons k ks => exact .inr ⟨k, ks, rfl, rfl, by simp [offer, hp, hw]⟩

/-- What one offer does to the ports: no word moves; what is pending stays; on the port itself something is pending
afterwards exactly when there is a word, and what becomes pending has a number not smaller than the clock. -/
theorem offer_spec (p p' : Port) (s : State) :
    (offer p s).ports.words p' = s.ports.words p' ∧
      (∀ r, s.ports.pending p' = some r → (offer p s).ports.pending p' = some r) ∧
      (p' ≠ p → (offer p s).ports.line p' = s.ports.line p') ∧
      ((offer p s).ports.pending p = none → s.ports.words p = []) ∧
      ∀ r, (offer p s).ports.pending p' = some r → s.ports.pending p' = none → s.tick ≤ r.due := by
  rcases offer_cases p s with ⟨h, hw⟩ | ⟨k, ks, hp, hw, h⟩
  · rw [h]
    refine ⟨rfl, fun _ hr => hr, fun _ => rfl, fun hn => by simp [Ports.words, hn, hw hn], fun r hr hn => ?_⟩
    rw [hn] at hr; cases hr
  · rw [h]
    by_cases hpp : p' = p
    · subst hpp
      unfold Ports.pending at hp
      unfold Ports.waiting at hw
      refine ⟨?_, ?_, fun hne => absurd rfl hne, ?_, ?_⟩
      · simp [Ports.words, Ports.pending, Ports.waiting, hp, hw]
      · intro r hr; unfold Ports.pending at hr; rw [hp] at hr; cases hr
      · simp [Ports.pending]
      · intro r hr _
        simp only [Ports.pending, Ports.line_setLine_self, Option.some.injEq] at hr
        subst hr
        exact Nat.le_add_right _ _
    · have hl : (s.ports.setLine p ⟨some ⟨k, s.tick + Config.arbOrder s.serial⟩, ks⟩).line p' = s.ports.line p' :=
        s.ports.line_setLine_of_ne _ hpp
      refine ⟨?_, ?_, fun _ => hl, ?_, ?_⟩
      · simp only [Ports.words, Ports.pending, Ports.waiting, hl]
      · intro r hr; simpa only [Ports.pending, hl] using hr
      · simp [Ports.pending]
      · intro r hr hn
        simp only [Ports.pending, hl] at hr hn
        rw [hn] at hr; cases hr

/-- What offers on several ports do: no word moves, what is pending stays, one of these ports with a word on it has a
request pending, and what becomes pending has a number not smaller than the clock. -/
theorem offers_spec (l : List Port) (s : State) (p : Port) :
    (l.foldl (fun t p => offer p t) s).ports.words p = s.ports.words p ∧
      (∀ r, s.ports.pending p = some r → (l.foldl (fun t p => offer p t) s).ports.pending p = some r) ∧
      (p ∈ l → (l.foldl (fun t p => offer p t) s).ports.pending p = none → s.ports.words p = []) ∧
      ∀ r, (l.foldl (fun t p => offer p t) s).ports.pending p = some r → s.ports.pending p = none → s.tick ≤ r.due := by
  induction l generalizing s with
  | nil =>
    refine ⟨rfl, fun _ h => h, fun h => (List.not_mem_nil h).elim, fun r h h' => ?_⟩
    rw [List.foldl_nil, h'] at h
    cases h
  | cons p' l ih =>
    obtain ⟨o1, o2, -, o4, o5⟩ := offer_spec p' p s
    obtain ⟨i1, i2, i3, i4⟩ := ih (offer p' s)
    rw [List.foldl_cons]
    refine ⟨i1.trans o1, fun r h => i2 r (o2 r h), fun hm hn => ?_, fun r h h' => ?_⟩
    · cases ho : (offer p' s).ports.pending p with
      | some r =>
        rw [i2 r ho] at hn
        cases hn
      | none =>
        rcases List.mem_cons.mp hm with rfl | hm
        · exact o4 ho
        · exact o1 ▸ i3 hm hn
    · cases ho : (offer p' s).ports.pending p with
      | none => simpa using i4 r h ho
      | some r' =>
        rw [i2 r' ho] at h
        cases h
        exact o5 r ho h'

/-- What all offers of a step do. -/
theorem offerAll_spec (s : State) (p : Port) :
    (offerAll s).ports.words p = s.ports.words p ∧
      (∀ r, s.ports.pending p = some r → (offerAll s).ports.pending p = some r) ∧
      ((offerAll s).ports.pending p = none → s.ports.words p = []) ∧
      ∀ r, (offerAll s).ports.pending p = some r → s.ports.pending p = none → s.tick ≤ r.due := by
  have hmem : p ∈ allPorts := by cases p <;> decide
  obtain ⟨h1, h2, h3, h4⟩ := offers_spec allPorts s p
  exact ⟨h1, h2, h3 hmem, h4⟩

/-- Offering changes the ports and the model's serial counter only. -/
theorem offerAll_frame (s : State) :
    (offerAll s).x = s.x ∧ (offerAll s).notify = s.notify ∧ (offerAll s).awaitingData = s.awaitingData ∧
      (offerAll s).pendingAddress = s.pendingAddress ∧ (offerAll s).inputs = s.inputs ∧
      (offerAll s).tick = s.tick := by
  simp [offerAll, allPorts]

section sample
variable (s : State)
@[simp] theorem sample_x : (sample s).x = s.x := by
  simp [sample, offerAll_frame, presentAll_frame]
@[simp] theorem sample_notify : (sample s).notify = s.notify := by
  simp [sample, offerAll_frame, presentAll_frame]
@[simp] theorem sample_awaitingData : (sample s).awaitingData = s.awaitingData := by
  simp [sample, offerAll_frame, presentAll_frame]
@[simp] theorem sample_pendingAddress : (sample s).pendingAddress = s.pendingAddress := by
  simp [sample, offerAll_frame, presentAll_frame]
@[simp] theorem sample_seq : (sample s).seq = s.seq := by simp [State.seq]
@[simp] theorem sample_inputs : (sample s).inputs = s.inputs.tail := by
  simp [sample, offerAll_frame, presentAll_frame]
@[simp] theorem sample_tick : (sample s).tick = s.tick + 1 := by
  simp [sample, offerAll_frame, presentAll_frame]
end sample

/-- The words on a port at the grant of a step: those that were there, then those the step brings. -/
theorem sample_words (s : State) (p : Port) : (sample s).ports.words p = s.ports.words p ++ s.arrivalsOn p :=
  (offerAll_spec _ p).1.trans (presentAll_words s.arrivals s p)

/-- What is pending stays pending under its number until it is granted (R55). -/
theorem sample_pending_of_pending {s : State} {p : Port} {r : Request} (h : s.ports.pending p = some r) :
    (sample s).ports.pending p = some r :=
  (offerAll_spec _ p).2.1 r ((presentAll_pending s.arrivals s p).trans h)

/-- At the grant of a step a port has no request pending exactly when there is no word on it. -/
theorem sample_pending_eq_none {s : State} {p : Port} :
    (sample s).ports.pending p = none ↔ (sample s).ports.words p = [] := by
  constructor
  · intro h
    exact (offerAll_spec _ p).1.trans ((offerAll_spec _ p).2.2.1 h)
  · intro h
    simpa using (List.append_eq_nil_iff.mp h).1

/-- A request pending at the grant of a step was pending before it, or has a number not smaller than the clock. -/
theorem sample_pending_cases {s : State} {p : Port} {r : Request} (h : (sample s).ports.pending p = some r) :
    s.ports.pending p = some r ∨ (s.ports.pending p = none ∧ s.tick ≤ r.due) := by
  cases hs : s.ports.pending p with
  | some r' => rw [sample_pending_of_pending hs] at h; exact .inl h
  | none =>
    refine .inr ⟨rfl, ?_⟩
    have := (offerAll_spec (presentAll s.arrivals s) p).2.2.2 r h ((presentAll_pending s.arrivals s p).trans hs)
    simpa [presentAll_frame] using this

/-! ### One step -/

/-- What a step is: the reset state, a step without a grant, or the granted operation (R55, R170). -/
theorem step_cases (s : State) :
    (s.input.rst = true ∧ step s = .next (powerOnReset s)) ∨
      (s.input.rst = false ∧ (∀ p, (sample s).ports.pending p = none) ∧ step s = .next (noGrant (sample s))) ∨
      (∃ p r, s.input.rst = false ∧ arbitrate (sample s).ports = some (p, r) ∧
        step s = exec (decode r.word) (grant p (sample s))) := by
  by_cases h : s.input.rst = true
  · exact .inl ⟨h, by simp [step, h]⟩
  · have h' : s.input.rst = false := by simpa using h
    cases ha : arbitrate (sample s).ports with
    | none => exact .inr (.inl ⟨h', arbitrate_none.mp ha, by simp [step, h', fetch, ha]⟩)
    | some c => exact .inr (.inr ⟨c.1, c.2, h', rfl, by simp [step, h', fetch, ha]⟩)

end Sys2Proof.Machine
end

