-- ==== Sys2Proof/Laws/Exec.lean ====
section
/-! SUPPORT. Once for all operations: what `exec` does to the registers, the flag, the cursor, the response and the
surroundings, in terms of the bank writes of the operation and its row of the transition table. -/

namespace Sys2Proof.Machine

/-- `MemWrite`s in order. -/
def writeAll (ws : List (Byte × Byte)) (s : State) : State := ws.foldl (fun t w => memWrite w.1 w.2 t) s

@[simp] theorem writeAll_nil (s : State) : writeAll [] s = s := rfl

@[simp] theorem writeAll_cons (w : Byte × Byte) (ws : List (Byte × Byte)) (s : State) :
    writeAll (w :: ws) s = writeAll ws (memWrite w.1 w.2 s) := rfl

/-- The response an operation gives in a state (R82). -/
def responseOf (i : Instr) (s : State) : Response :=
  match i with
  | .init => .none
  | .read a => .rdata (memRead a s)
  | .write _ _ => .none
  | .setDigitalSnapshot _ => .none
  | .setAnalogChannel _ _ => .none
  | .setActive _ => .none
  | .getAndAckChange => ackResponse s
  | .onByteReceived _ => .none
  | .pair _ _ => .none

/-- A received byte writes what `writesOf` says and moves the cursor by the table (R120, R122). -/
theorem receiveByte_spec (b : Byte) (s : State) :
    (receiveByte b s).x = (writeAll (writesOf s.seq (.onByteReceived b)) s).x ∧
      (receiveByte b s).notify = (writeAll (writesOf s.seq (.onByteReceived b)) s).notify ∧
      (receiveByte b s).seq = cursorAfterByte b s.seq := by
  refine ⟨?_, ?_, receiveByte_seq b s⟩ <;>
    rcases receiveByte_cases b s with ⟨hs, hr⟩ | ⟨p, hs, hr⟩ <;> simp [hs, hr, writesOf]

/-- The two bytes of a pair write what `writesOf` says: one of them is data (R126). -/
theorem receiveByte_receiveByte_spec (a v : Byte) (s : State) :
    (receiveByte v (receiveByte a s)).x = (writeAll (writesOf s.seq (.pair a v)) s).x ∧
      (receiveByte v (receiveByte a s)).notify = (writeAll (writesOf s.seq (.pair a v)) s).notify ∧
      (receiveByte v (receiveByte a s)).seq = cursorAfterByte v (cursorAfterByte a s.seq) := by
  rcases receiveByte_cases a s with ⟨hs, hr⟩ | ⟨p, hs, hr⟩
  · have hw := receiveByte_spec v (latchAddress a s)
    have hc := memWrite_congr (s := s) (t := latchAddress a s) rfl rfl a v
    simp only [latchAddress_seq, writesOf, writeAll_cons, writeAll_nil] at hw
    simp only [hr, hs, writesOf, writeAll_cons, writeAll_nil, cursorAfterByte]
    exact ⟨hw.1.trans hc.1, hw.2.1.trans hc.2, hw.2.2⟩
  · have hw := receiveByte_spec v (closePair (memWrite p a s))
    simp only [closePair_seq, writesOf, writeAll_nil, closePair_x, closePair_notify] at hw
    simp only [hr, hs, writesOf, writeAll_cons, writeAll_nil, cursorAfterByte]
    exact hw

/-- Every operation but INIT: its next state's registers and flag are those after its bank writes (the flag cleared by an
acknowledgment), its cursor is the table's, its response its own, its surroundings as before. -/
theorem exec_spec (i : Instr) (s : State) (hi : i ≠ .init) :
    ∃ t, exec i s = .next t ∧ t.x = (writeAll (writesOf s.seq i) s).x ∧
      t.notify = (if i = .getAndAckChange then false else (writeAll (writesOf s.seq i) s).notify) ∧
      t.seq = cursorAfter s.seq i ∧ t.resp = responseOf i s ∧ SameSurroundings s t := by
  cases i with
  | init => exact absurd rfl hi
  | read a => exact ⟨_, exec_read a s, rfl, rfl, rfl, rfl, rfl, rfl, rfl, rfl, rfl⟩
  | write a v =>
    exact ⟨_, exec_write a v s, rfl, rfl, by simp [cursorAfter], rfl, by simp [SameSurroundings]⟩
  | setDigitalSnapshot v =>
    exact ⟨_, exec_setDigitalSnapshot v s, rfl, rfl, by simp [cursorAfter], rfl, by simp [SameSurroundings]⟩
  | setAnalogChannel c v =>
    refine ⟨_, exec_setAnalogChannel c v s, ?_⟩
    cases h : analogAddress c <;> simp [writesOf, cursorAfter, responseOf, SameSurroundings, h]
  | setActive v =>
    exact ⟨_, exec_setActive v s, rfl, rfl, by simp [cursorAfter], rfl, by simp [SameSurroundings]⟩
  | getAndAckChange => exact ⟨_, exec_getAndAckChange s, rfl, rfl, rfl, rfl, rfl, rfl, rfl, rfl, rfl⟩
  | onByteReceived b =>
    obtain ⟨hx, hn, hq⟩ := receiveByte_spec b s
    exact ⟨_, exec_onByteReceived b s, hx, by simpa using hn, hq, rfl, by simp [SameSurroundings]⟩
  | pair a v =>
    obtain ⟨hx, hn, hq⟩ := receiveByte_receiveByte_spec a v s
    exact ⟨_, exec_pair a v s, hx, by simpa using hn, hq, rfl, by simp [SameSurroundings]⟩

/-- INIT: everything of the CORE at its reset value (R100, R171). -/
theorem exec_init_spec (s : State) :
    ∃ t, exec .init s = .next t ∧ t.x = State.reset.x ∧ t.notify = false ∧ t.awaitingData = false ∧
      t.pendingAddress = 0 ∧ t.resp = .none ∧ SameSurroundings s t :=
  ⟨_, exec_init s, rfl, rfl, rfl, rfl, rfl, rfl, rfl, rfl, rfl, rfl⟩

/-- `exec` is total: there is always a next state (R106, R150). -/
theorem exec_next (i : Instr) (s : State) : ∃ t, exec i s = .next t := by
  by_cases hi : i = .init
  · subst hi; exact ⟨_, exec_init s⟩
  · obtain ⟨t, h, -⟩ := exec_spec i s hi
    exact ⟨t, h⟩

/-- Bank writes read back: the last value written to the address, else what was there. -/
theorem memRead_writeAll (ws : List (Byte × Byte)) (s : State) (b : Byte) (hb : b.toNat < Config.N) :
    memRead b (writeAll ws s) = (ws.reverse.find? (fun w => decide (w.1 = b))).elim (memRead b s) Prod.snd := by
  induction ws generalizing s with
  | nil => simp
  | cons w ws ih =>
    rw [writeAll_cons, ih, memRead_memWrite, List.reverse_cons, List.find?_append]
    cases h : List.find? (fun w => decide (w.1 = b)) ws.reverse with
    | some u => simp
    | none =>
      by_cases hw : w.1 = b
      · subst hw; simp [hb]
      · have hw' : b ≠ w.1 := fun e => hw e.symm
        simp [hw, hw']

/-- The flag after bank writes: set if one of them was to the active address, else as before (R136). -/
theorem writeAll_notify (ws : List (Byte × Byte)) (s : State) :
    (writeAll ws s).notify = (ws.any (fun w => decide (w.1 = Config.activeAddr)) || s.notify) := by
  induction ws generalizing s with
  | nil => simp
  | cons w ws ih =>
    rw [writeAll_cons, ih, memWrite_notify]
    by_cases h : w.1 = Config.activeAddr <;> simp [h]

end Sys2Proof.Machine
end

