-- ==== Sys2Proof/Laws/PerInstr.lean ====
section
/-! SUPPORT. For every operation as syntax: its encoding is of its own row of the opcode table. -/

namespace Sys2Proof.Laws.RowMatch

/-- The encoded word of an operation has the format and the fixed bits of the one row with its mnemonic (R73, R78, R79). -/
def Statement (i : Instr) : Prop :=
  ∃ r ∈ opcodeTable, r.mnemonic = i.mnemonic ∧ r.holds (encode i) = true

/-- The op field of an assembled command word (R78). -/
theorem cmdWord_op (op : BitVec 3) (a v : Byte) : (cmdWord op a v).toNat &&& 0x70000 = op.toNat * 65536 := by
  have h : (cmdWord op a v) &&& 0x70000#19 = op.setWidth 19 <<< 16 := by
    ext i hi
    simp only [cmdWord, BitVec.getElem_and, BitVec.getElem_append]
    interval_cases i <;> simp
  have hop := op.isLt
  calc (cmdWord op a v).toNat &&& 0x70000 = (cmdWord op a v &&& 0x70000#19).toNat := rfl
    _ = (op.setWidth 19 <<< 16).toNat := by rw [h]
    _ = op.toNat * 65536 := by
      simp only [BitVec.toNat_shiftLeft, BitVec.toNat_setWidth, Nat.shiftLeft_eq]
      rw [Nat.mod_eq_of_lt (by omega : op.toNat < 2 ^ 19)]
      exact Nat.mod_eq_of_lt (by omega)

theorem init : Statement .init := ⟨⟨"INIT", .cmd, 0x00000, 0x70000⟩, by decide, rfl, by decide⟩

theorem read (a : Byte) : Statement (.read a) :=
  ⟨⟨"READ", .cmd, 0x10000, 0x70000⟩, by decide, rfl, by
    simp [OpcodeRow.holds, encode, Packet.format, Packet.toNat, cmdWord_op]⟩

theorem write (a v : Byte) : Statement (.write a v) :=
  ⟨⟨"WRITE", .cmd, 0x20000, 0x70000⟩, by decide, rfl, by
    simp [OpcodeRow.holds, encode, Packet.format, Packet.toNat, cmdWord_op]⟩

theorem setDigitalSnapshot (v : Byte) : Statement (.setDigitalSnapshot v) :=
  ⟨⟨"SET_DIGITAL_SNAPSHOT", .cmd, 0x30000, 0x70000⟩, by decide, rfl, by
    simp [OpcodeRow.holds, encode, Packet.format, Packet.toNat, cmdWord_op]⟩

theorem setAnalogChannel (c v : Byte) : Statement (.setAnalogChannel c v) :=
  ⟨⟨"SET_ANALOG_CHANNEL", .cmd, 0x40000, 0x70000⟩, by decide, rfl, by
    simp [OpcodeRow.holds, encode, Packet.format, Packet.toNat, cmdWord_op]⟩

theorem setActive (v : Byte) : Statement (.setActive v) :=
  ⟨⟨"SET_ACTIVE", .cmd, 0x50000, 0x70000⟩, by decide, rfl, by
    simp [OpcodeRow.holds, encode, Packet.format, Packet.toNat, cmdWord_op]⟩

theorem getAndAckChange : Statement .getAndAckChange :=
  ⟨⟨"GET_AND_ACK_CHANGE", .cmd, 0x60000, 0x70000⟩, by decide, rfl, by decide⟩

theorem onByteReceived (b : Byte) : Statement (.onByteReceived b) :=
  ⟨⟨"ON_BYTE_RECEIVED", .cmd, 0x70000, 0x70000⟩, by decide, rfl, by
    simp [OpcodeRow.holds, encode, Packet.format, Packet.toNat, cmdWord_op]⟩

theorem pair (a v : Byte) : Statement (.pair a v) :=
  ⟨⟨"PAIR", .pair, 0, 0⟩, by decide, rfl, by simp [OpcodeRow.holds, encode, Packet.format, Packet.toNat]⟩

end Sys2Proof.Laws.RowMatch
end

