-- ==== Sys2Proof/Tests/Slice0.lean ====
section
/-! SUPPORT. Small tests. Expected results are the vectors of 95_test_vectors.md (named at each group) or computed by hand
from the rules; then one witness for the hypotheses of every statement that has any. -/

namespace Sys2Proof.Tests

open Sys2Proof.Machine

/-- A state of the CORE, `x=[x0,x1,x2,x3] n=<notify> seq=<q>`, nothing presented. -/
def st (x0 x1 x2 x3 : Byte) (n : Bool) (q : Seq) : State :=
  { State.reset with
    x := #v[x0, x1, x2, x3], notify := n
    awaitingData := match q with
      | .awaitingAddress => false
      | .awaitingData _ => true
    pendingAddress := match q with
      | .awaitingAddress => 0
      | .awaitingData p => p }

/-- The next state, if there is one. -/
def nextOf (o : Host.Outcome State Fault Refusal) : Option State :=
  match o with
  | .next t => some t
  | .fault _ => none
  | .refused _ => none

/-- What a vector shows of a state: registers, flag, cursor, response. -/
def view (o : Host.Outcome State Fault Refusal) : Option (List Byte × Bool × Seq × Response) :=
  (nextOf o).map fun t => (t.x.toList, t.notify, t.seq, t.resp)

/-! ### Decoding, family encoding E1 to E15 and the pairs: words written out from R73, R78, R79 -/

theorem test_decode_E1 : decodeTableWord 24 0b0000000000000000000 = some .init := by decide
theorem test_decode_E2 : decodeTableWord 24 0b0001111111111111111 = some .init := by decide
theorem test_decode_E3 : decodeTableWord 24 0b0010000001100000000 = some (.read 3) := by decide
theorem test_decode_E4 : decodeTableWord 24 0b0010000001110101011 = some (.read 3) := by decide
theorem test_decode_E5 : decodeTableWord 24 0b0100000001101000010 = some (.write 3 0x42) := by decide
theorem test_decode_E6 : decodeTableWord 24 0b0101111111100000000 = some (.write 0xFF 0) := by decide
theorem test_decode_E7 : decodeTableWord 24 0b0110000000011110000 = some (.setDigitalSnapshot 0xF0) := by decide
theorem test_decode_E8 : decodeTableWord 24 0b0111010101011110000 = some (.setDigitalSnapshot 0xF0) := by decide
theorem test_decode_E9 : decodeTableWord 24 0b1000000000100110100 = some (.setAnalogChannel 1 0x34) := by decide
theorem test_decode_E10 : decodeTableWord 24 0b1000000001010011001 = some (.setAnalogChannel 2 0x99) := by decide
theorem test_decode_E11 : decodeTableWord 24 0b1010000000000100000 = some (.setActive 0x20) := by decide
theorem test_decode_E12 : decodeTableWord 24 0b1100000000000000000 = some .getAndAckChange := by decide
theorem test_decode_E13 : decodeTableWord 24 0b1110000000000000011 = some (.onByteReceived 3) := by decide
theorem test_decode_E14 : decodeTableWord 24 0b1111111111100000000 = some (.onByteReceived 0) := by decide
theorem test_decode_E15 : decodeTableWord 24 0b1111111111111111111 = some (.onByteReceived 0xFF) := by decide
theorem test_decode_pair : decodeTableWord 16 0b0000001101000010 = some (.pair 3 0x42) := by decide
theorem test_decode_pair_out_of_range : decodeTableWord 16 0b0000010000000000 = some (.pair 4 0) := by decide

/-! ### What is no word, and what is on the wrong port, is refused (WellFormed) -/

theorem test_command_word_over_19_bits : Format.cmd.fits 0x80000 = false := by decide
theorem test_command_word_over_19_bits_rejected :
    decodeNumber 24 0x80000 = .error .wordTooWide := by rfl
theorem test_pair_over_16_bits : Format.pair.fits 0x10000 = false := by decide
theorem test_pair_over_16_bits_rejected : decodeNumber 16 0x10000 = .error .wordTooWide := by rfl
theorem test_no_format_of_8_bits : decodeNumber 8 0 = .error .noSuchFormat := by rfl
theorem test_write_is_not_carried_by_read_port : Port.carries .rd (.write 3 0x42) = false := by decide
theorem test_every_operand_is_legal : (Instr.setAnalogChannel 0xFF 0x99).wf = true := by decide

/-! ### Parameters (R6) -/

theorem test_parameter_relations :
    Config.activeAddr.toNat < Config.N ∧ Config.digitalAddr.toNat < Config.N ∧
      Config.analog0Addr.toNat + Config.numAnalog - 1 = Config.analog1Addr.toNat ∧
      Config.analog1Addr.toNat < Config.N ∧
      [Config.digitalAddr, Config.analog0Addr, Config.analog1Addr, Config.activeAddr].Nodup := by decide

theorem test_table_rows_do_not_overlap :
    (opcodeTable.take 8).Pairwise fun a b => a.matchBits ≠ b.matchBits ∧ a.mask = b.mask := by decide

/-! ### Operations: vectors S, B, Q, F -/

theorem test_init_B18 : view (exec .init (st 1 2 3 4 true (.awaitingData 2))) =
    some ([0, 0, 0, 0], false, .awaitingAddress, .none) := by decide
theorem test_init_cursor_kept_when_parameter_false_B18 :
    (initCore false (st 1 2 3 4 true (.awaitingData 2))).seq = .awaitingData 2 := by decide
theorem test_read_B6 : view (exec (.read 3) (st 0 0 0 0x42 true .awaitingAddress)) =
    some ([0, 0, 0, 0x42], true, .awaitingAddress, .rdata 0x42) := by decide
theorem test_read_S2 : view (exec (.read 4) (st 0x11 0x22 0x33 0x44 false .awaitingAddress)) =
    some ([0x11, 0x22, 0x33, 0x44], false, .awaitingAddress, .rdata 0) := by decide
theorem test_write_B5 : view (exec (.write 3 0x42) (st 0 0 0 0x42 false .awaitingAddress)) =
    some ([0, 0, 0, 0x42], true, .awaitingAddress, .none) := by decide
theorem test_write_B8 : view (exec (.write 0x83 0x99) (st 0x11 0x22 0x33 0x44 false .awaitingAddress)) =
    some ([0x11, 0x22, 0x33, 0x44], false, .awaitingAddress, .none) := by decide
theorem test_setDigitalSnapshot_B11 : view (exec (.setDigitalSnapshot 0xF0) State.reset) =
    some ([0xF0, 0, 0, 0], false, .awaitingAddress, .none) := by decide
theorem test_setAnalogChannel_B13 : view (exec (.setAnalogChannel 1 0x34) State.reset) =
    some ([0, 0, 0x34, 0], false, .awaitingAddress, .none) := by decide
theorem test_setAnalogChannel_B14 : view (exec (.setAnalogChannel 2 0x99) State.reset) =
    some ([0, 0, 0, 0], false, .awaitingAddress, .none) := by decide
theorem test_setActive_B16 : view (exec (.setActive 0x20) State.reset) =
    some ([0, 0, 0, 0x20], true, .awaitingAddress, .none) := by decide
theorem test_ack_S3a_step3 : view (exec .getAndAckChange (st 0 0 0 0x42 true .awaitingAddress)) =
    some ([0, 0, 0, 0x42], false, .awaitingAddress, .chg (some 0x42)) := by decide
theorem test_ack_F2 : view (exec .getAndAckChange (st 0 0 0 0x42 false .awaitingAddress)) =
    some ([0, 0, 0, 0x42], false, .awaitingAddress, .chg none) := by decide
theorem test_byte_Q3 : view (exec (.onByteReceived 0xFF) State.reset) =
    some ([0, 0, 0, 0], false, .awaitingData 0xFF, .none) := by decide
theorem test_byte_Q6_second : view (exec (.onByteReceived 3) (st 0 0 0 0 false (.awaitingData 3))) =
    some ([0, 0, 0, 3], true, .awaitingAddress, .none) := by decide
theorem test_pair_Q4 : view (exec (.pair 0xFF 0x12) State.reset) =
    some ([0, 0, 0, 0], false, .awaitingAddress, .none) := by decide
theorem test_pair_shifted_Q7 : view (exec (.pair 3 1) (st 0 0 0 0 false (.awaitingData 2))) =
    some ([0, 0, 3, 0], false, .awaitingData 1, .none) := by decide

/-! ### Steps: arbiter vectors A, reset vector Z1 -/

/-- `P_WR: WRITE 3,0x99` and `P_ACK: ACK` pending, with the arbiter's numbers `dw` and `da`. -/
def raceA2 (dw da : Nat) : State :=
  (st 0 0 0 0x11 true .awaitingAddress).withTwoPending .wr (.cmd 0x20399) dw [] .ack (.cmd 0x60000) da

theorem test_race_A2_write_first : (nextOf (step (raceA2 0 1))).map (fun t => (t.gnt, t.x.toList, t.notify)) =
    some (some .wr, [0, 0, 0, 0x99], true) := by decide
theorem test_race_A2_ack_first : (nextOf (step (raceA2 1 0))).map (fun t => (t.gnt, t.resp, t.notify)) =
    some (some .ack, .chg (some 0x11), false) := by decide
theorem test_step_idle_A7 : view (step (st 1 2 3 4 true (.awaitingData 3))) =
    some ([1, 2, 3, 4], true, .awaitingData 3, .none) := by decide
theorem test_step_reset_Z1 :
    (nextOf (step { raceA2 0 1 with inputs := [⟨true, []⟩] })).map (fun t => (t.x.toList, t.notify, t.ports)) =
      some ([0, 0, 0, 0], false, Ports.empty) := by decide
theorem test_step_runs_placed_word :
    (nextOf (step (State.reset.withFetchWord 24 0x20342))).map (fun t => (t.gnt, t.x.toList, t.notify)) =
      some (some .wr, [0, 0, 0, 0x42], true) := by decide
theorem test_presented_pair_is_two_bytes :
    (sample { State.reset with inputs := [⟨false, [.pair 0x0342]⟩] }).ports.words .byte =
      [.cmd 0x70003, .cmd 0x70042] := by decide

/-! ### Witnesses: concrete states and operands that meet a statement's hypotheses, at the bounds of its clauses -/

/-- A state in whose coming step `rst` is asserted while a request is pending and the flag is set. -/
def rstState : State := { raceA2 0 1 with inputs := [⟨true, []⟩] }

theorem witness_AssertedResetHoldsTheResetState : rstState.input.rst = true := by decide
theorem witness_InitAndPowerOnResetReachTheSameCoreState : rstState.input.rst = true := by decide
theorem witness_StepAppliesTheGrantedDecodedOperation :
    (raceA2 0 1).input.rst = false ∧
      arbitrate (sample (raceA2 0 1)).ports = some (.wr, ⟨.cmd 0x20399, 0⟩) := by decide
theorem witness_PlacedWordIsRunByTheNextStep : decodeTableWord 24 0x7FFFF = some (.onByteReceived 0xFF) := by decide
theorem witness_StepWithNothingPendingChangesNothing :
    State.reset.input.rst = false ∧ ∀ p, (sample State.reset).ports.req p = false :=
  ⟨rfl, fun p => by cases p <;> rfl⟩
theorem witness_ReadReturns_valid : (3 : Byte).toNat < Config.N := by decide
theorem witness_ReadReturns_out_of_range : Config.N ≤ (4 : Byte).toNat ∧ Config.N ≤ (255 : Byte).toNat := by decide
theorem witness_WriteStores_valid : (0 : Byte).toNat < Config.N ∧ (3 : Byte).toNat < Config.N := by decide
theorem witness_WriteStores_out_of_range : Config.N ≤ (4 : Byte).toNat ∧ Config.N ≤ (0x83 : Byte).toNat := by decide
theorem witness_SetAnalogChannel_other_channels : 2 ≤ (2 : Byte).toNat ∧ 2 ≤ (255 : Byte).toNat := by decide
theorem witness_ByteIsLatched_address : State.reset.awaitingData = false := by decide
theorem witness_ByteIsLatched_data_valid :
    (st 0 0 0 0 false (.awaitingData 3)).awaitingData = true ∧
      (st 0 0 0 0 false (.awaitingData 3)).pendingAddress.toNat < Config.N := by decide
theorem witness_ByteIsLatched_data_out_of_range :
    (st 0 0 0 0 false (.awaitingData 4)).awaitingData = true ∧
      Config.N ≤ (st 0 0 0 0 false (.awaitingData 4)).pendingAddress.toNat := by decide
theorem witness_PairWrites_valid : State.reset.awaitingData = false ∧ (3 : Byte).toNat < Config.N := by decide
theorem witness_PairWrites_out_of_range : State.reset.awaitingData = false ∧ Config.N ≤ (4 : Byte).toNat := by decide
theorem witness_PairWrites_shifted_valid :
    (st 0 0 0 0 false (.awaitingData 3)).awaitingData = true ∧
      (st 0 0 0 0 false (.awaitingData 3)).pendingAddress.toNat < Config.N := by decide
theorem witness_PairWrites_shifted_out_of_range :
    (st 0 0 0 0 false (.awaitingData 4)).awaitingData = true ∧
      Config.N ≤ (st 0 0 0 0 false (.awaitingData 4)).pendingAddress.toNat := by decide

theorem witness_OperationsWriteOnly_cursor :
    exec (.write 3 1) State.reset = .next (respond .none (memWrite 3 1 State.reset)) ∧
      Instr.write 3 1 ≠ .init ∧ (∀ b, Instr.write 3 1 ≠ .onByteReceived b) ∧ ∀ a v, Instr.write 3 1 ≠ .pair a v :=
  ⟨rfl, by decide, fun _ => by simp, fun _ _ => by simp⟩
theorem witness_OperationsWriteOnly_flag :
    exec (.write 2 1) State.reset = .next (respond .none (memWrite 2 1 State.reset)) ∧
      Instr.write 2 1 ≠ .init ∧ Instr.write 2 1 ≠ .getAndAckChange ∧
      ∀ v, (Config.activeAddr, v) ∉ writesOf State.reset.seq (.write 2 1) :=
  ⟨rfl, by decide, by decide, fun v => by simp [writesOf, Config.activeAddr]⟩
theorem witness_OperationsWriteOnly_registers :
    exec (.onByteReceived 3) State.reset = .next (respond .none (receiveByte 3 State.reset)) ∧
      Instr.onByteReceived 3 ≠ .init ∧ writesOf State.reset.seq (.onByteReceived 3) = [] :=
  ⟨rfl, by decide, by decide⟩
theorem witness_OnlyTheWrittenAddressesChange :
    exec (.write 3 1) State.reset = .next (respond .none (memWrite 3 1 State.reset)) ∧
      Instr.write 3 1 ≠ .init ∧ (2 : Byte) ∉ (writesOf State.reset.seq (.write 3 1)).map Prod.fst :=
  ⟨rfl, by decide, by decide⟩
theorem witness_OperationsLeaveTheSurroundings :
    exec (.write 3 1) (raceA2 0 1) = .next (respond .none (memWrite 3 1 (raceA2 0 1))) := rfl
theorem witness_OutOfRangeAccessesHaveNoEffect : 4 ≤ (4 : Byte).toNat ∧ 4 ≤ (255 : Byte).toNat := by decide
theorem witness_WrittenValueIsReadBackUntilOverwritten :
    (3 : Byte).toNat < Config.N ∧ Instr.init ∉ [.write 2 1, .getAndAckChange] ∧
      (3 : Byte) ∉ (writesOfAll State.reset.seq [.write 2 1, .getAndAckChange]).map Prod.fst := by decide
theorem witness_SettersAndPairsRouteToWrite : State.reset.seq = .awaitingAddress := by decide

theorem witness_FlagIsSet_by_a_write :
    step (State.reset.withFetchWord 24 0x20342) =
        .next (respond .none (memWrite 3 0x42 (grant .wr (sample (State.reset.withFetchWord 24 0x20342))))) ∧
      granted (State.reset.withFetchWord 24 0x20342) = some (.write 3 0x42) ∧
      (Config.activeAddr, (0x42 : Byte)) ∈ writesOf (State.reset.withFetchWord 24 0x20342).seq (.write 3 0x42) ∧
      (State.reset.withFetchWord 24 0x20342).notify = false ∧
      (memWrite 3 0x42 (grant .wr (sample (State.reset.withFetchWord 24 0x20342)))).notify = true :=
  ⟨rfl, by decide, by decide, rfl, by decide⟩
theorem witness_FlagIsCleared_by_an_ack :
    (∃ t, step (raceA2 1 0) = .next t ∧ t.notify = false) ∧ (raceA2 1 0).notify = true ∧
      granted (raceA2 1 0) = some .getAndAckChange :=
  ⟨⟨_, rfl, rfl⟩, rfl, by decide⟩
theorem witness_FlagIsCleared_by_init :
    (∃ t, step ((raceA2 0 1).withFetchWord 24 0x00000) = .next t ∧ t.notify = false) ∧
      ((raceA2 0 1).withFetchWord 24 0x00000).notify = true ∧
      granted ((raceA2 0 1).withFetchWord 24 0x00000) = some .init :=
  ⟨⟨_, rfl, rfl⟩, rfl, by decide⟩
theorem witness_FlagIsCleared_by_reset :
    (∃ t, step rstState = .next t ∧ t.notify = false) ∧ rstState.notify = true ∧ rstState.input.rst = true :=
  ⟨⟨_, rfl, rfl⟩, rfl, rfl⟩
theorem witness_FlagIsCleared_kept :
    (∃ t, step (raceA2 0 1) = .next t ∧ t.notify = true) ∧ (raceA2 0 1).notify = true ∧
      granted (raceA2 0 1) = some (.write 3 0x99) :=
  ⟨⟨_, rfl, rfl⟩, rfl, by decide⟩
theorem witness_FlagIsCleared_not_delivered :
    activeWrites (cursorAfter (raceA2 0 1).seq .init) [.write 2 1] = [] ∧
      ∃ t u, applyOps [.init, .write 2 1] (raceA2 0 1) = .next t ∧ exec .getAndAckChange t = .next u :=
  ⟨by decide, _, _, rfl, rfl⟩
theorem witness_CoalescedWrites :
    Instr.init ∉ [.write 3 0x10, .write 3 0x20, .read 3] ∧
      Instr.getAndAckChange ∉ [.write 3 0x10, .write 3 0x20, .read 3] ∧
      (activeWrites State.reset.seq [.write 3 0x10, .write 3 0x20, .read 3]).getLast? = some 0x20 := by decide
/-- A state in AwaitingData(2) whose coming step grants the operation of a word. -/
def placed (nbits w : Nat) : State := (st 1 2 3 4 true (.awaitingData 2)).withFetchWord nbits w

theorem witness_CursorFollows_reset : rstState.input.rst = true ∧ ∃ t, step rstState = .next t := ⟨rfl, _, rfl⟩
theorem witness_CursorFollows_nothing_granted :
    granted (st 1 2 3 4 true (.awaitingData 2)) = none ∧ ∃ t, step (st 1 2 3 4 true (.awaitingData 2)) = .next t :=
  ⟨by decide, _, rfl⟩
theorem witness_CursorFollows_byte :
    granted (placed 24 0x70003) = some (.onByteReceived 3) ∧ ∃ t, step (placed 24 0x70003) = .next t :=
  ⟨by decide, _, rfl⟩
theorem witness_CursorFollows_pair :
    granted (placed 16 0x0342) = some (.pair 3 0x42) ∧ ∃ t, step (placed 16 0x0342) = .next t := ⟨by decide, _, rfl⟩
theorem witness_CursorFollows_init :
    granted (placed 24 0) = some .init ∧ ∃ t, step (placed 24 0) = .next t := ⟨by decide, _, rfl⟩
theorem witness_CursorFollows_bank_operations :
    granted (placed 24 0x10300) = some (.read 3) ∧ granted (placed 24 0x20342) = some (.write 3 0x42) ∧
      granted (placed 24 0x300F0) = some (.setDigitalSnapshot 0xF0) ∧
      granted (placed 24 0x40134) = some (.setAnalogChannel 1 0x34) ∧
      granted (placed 24 0x50020) = some (.setActive 0x20) := by decide
theorem witness_CursorFollows_bank_operations_step :
    (∃ t, step (placed 24 0x10300) = .next t) ∧ (∃ t, step (placed 24 0x20342) = .next t) ∧
      (∃ t, step (placed 24 0x300F0) = .next t) ∧ (∃ t, step (placed 24 0x40134) = .next t) ∧
      ∃ t, step (placed 24 0x50020) = .next t :=
  ⟨⟨_, rfl⟩, ⟨_, rfl⟩, ⟨_, rfl⟩, ⟨_, rfl⟩, _, rfl⟩
theorem witness_CursorFollows_ack :
    granted (placed 24 0x60000) = some .getAndAckChange ∧ ∃ t, step (placed 24 0x60000) = .next t :=
  ⟨by decide, _, rfl⟩
theorem witness_CursorIsDecidedByTheBytesAlone :
    State.reset.seq = .awaitingAddress ∧ Instr.init ∉ [.onByteReceived 3, .read 3, .onByteReceived 1] ∧
      ∃ t, applyOps [.onByteReceived 3, .read 3, .onByteReceived 1] State.reset = .next t :=
  ⟨rfl, by decide, _, rfl⟩
theorem witness_ByteStreamsArePairedByCountAlone : State.reset.seq = .awaitingAddress := by decide
theorem witness_PairSurvivesOperationsBetweenItsBytes :
    State.reset.seq = .awaitingAddress ∧
      ∀ i ∈ [Instr.setDigitalSnapshot 0x0F, .read 3, .getAndAckChange], i.port ≠ .byte ∧ i.port ≠ .init := by decide
theorem witness_PendingAddressIsUnobservable : State.reset.awaitingData = false := by decide
theorem witness_RunsAreSerial :
    (∀ e ∈ (raceA2 0 1).inputs, e.rst = false) ∧ ∃ t, Sys2Proof.core.run 2 (raceA2 0 1) = .next t :=
  ⟨by decide, _, rfl⟩
/-- The reset state with coming steps in which a write, a reset and another write are presented. -/
def resetInside : State :=
  { State.reset with inputs := [⟨false, [.cmd 0x20342]⟩, ⟨true, []⟩, ⟨false, [.cmd 0x20107]⟩] }

theorem witness_RunsAreSerial_reset_inside :
    SameCore State.reset resetInside ∧
      ∃ t, Sys2Proof.core.run 3 resetInside = .next t ∧ t.x.toList = [0, 7, 0, 0] :=
  ⟨⟨rfl, rfl, rfl, rfl⟩, _, rfl, rfl⟩
theorem witness_ExactlyOnePendingRequestIsGranted :
    (raceA2 0 1).input.rst = false ∧ ∃ t, step (raceA2 0 1) = .next t ∧ t.gnt = some .wr := ⟨rfl, _, rfl, rfl⟩
theorem witness_RequestsKeepTheirPortsOrder :
    (raceA2 0 1).input.rst = false ∧ ∃ t, step (raceA2 0 1) = .next t := ⟨rfl, _, rfl⟩
theorem witness_EveryPendingRequestCanBeTheOneGranted :
    (raceA2 0 1).input.rst = false ∧ (raceA2 0 1).arrivals = [] ∧ (raceA2 0 1).ports.words .ack ≠ [] := by decide
theorem witness_TheGrantGoesToASmallestNumber :
    (raceA2 0 1).input.rst = false ∧ (∃ t, step (raceA2 0 1) = .next t ∧ t.gnt = some .wr) ∧
      (sample (raceA2 0 1)).ports.pending .ack = some ⟨.cmd 0x60000, 1⟩ ∧ Port.ack ≠ .wr :=
  ⟨rfl, ⟨_, rfl, rfl⟩, by decide, by decide⟩

/-- A state in whose coming step an acknowledgment is presented while a write is pending. -/
def newAck : State :=
  { State.reset with
    ports := Ports.empty.setLine .wr ⟨some ⟨.cmd 0x20399, 0⟩, []⟩
    inputs := [⟨false, [.cmd 0x60000]⟩, ⟨false, [.cmd 0x10300]⟩] }

theorem witness_TheGrantGoesToASmallestNumber_newly_presented :
    (sample newAck).ports.pending .ack = some ⟨.cmd 0x60000, newAck.tick + Config.arbOrder newAck.serial⟩ ∧
      newAck.ports.pending .ack = none := ⟨rfl, rfl⟩
theorem witness_TheGrantGoesToASmallestNumber_still_pending :
    (sample newAck).ports.pending .wr = some ⟨.cmd 0x20399, 0⟩ := rfl
theorem witness_EveryPendingRequestIsGrantedByItsNumber :
    newAck.ports.pending .wr = some ⟨.cmd 0x20399, 0⟩ ∧
      ∀ e ∈ newAck.inputs.take (0 + 1 - newAck.tick + 5), e.rst = false := ⟨rfl, by decide⟩
theorem witness_SimultaneousRequests : Port.wr ≠ .ack ∧ State.reset.inputs = [] := by decide
theorem witness_AcknowledgmentRaces_write :
    decode (.cmd 0x20399) = .write 3 0x99 ∧ decode (.cmd 0x60000) = .getAndAckChange ∧ State.reset.inputs = [] := by
  decide
theorem witness_AcknowledgmentRaces_setActive :
    decode (.cmd 0x50099) = .setActive 0x99 ∧ decode (.cmd 0x60000) = .getAndAckChange ∧
      State.reset.inputs = [] := by decide
theorem witness_AcknowledgmentRaces_protocol :
    (st 0 0 0 0x11 false (.awaitingData 3)).seq = .awaitingData 3 ∧ decode (.cmd 0x70099) = .onByteReceived 0x99 ∧
      decode (.cmd 0x60000) = .getAndAckChange ∧ (st 0 0 0 0x11 false (.awaitingData 3)).inputs = [] := by decide
theorem witness_PresentedPairs_in_order :
    ({ State.reset with inputs := [⟨false, [.cmd 0x70001, .pair 0x0342, .cmd 0x60000]⟩] } : State).input.present =
      [.cmd 0x70001] ++ .pair (pairWord 3 0x42) :: [.cmd 0x60000] := by decide
theorem witness_PresentedPairs_alone :
    ({ State.reset with inputs := [⟨false, [.pair 0x0342]⟩] } : State).input = ⟨false, [.pair (pairWord 3 0x42)]⟩ ∧
      ({ State.reset with inputs := [⟨false, [.pair 0x0342]⟩] } : State).ports = Ports.empty := by decide
theorem witness_PairOfBytesBesideAnotherRequest : Port.ack ≠ .byte ∧ State.reset.inputs = [] := by decide
theorem witness_EveryWaitingWordIsGrantedInOrder :
    (∀ e ∈ newAck.inputs, e.rst = false) ∧ newAck.ports.words .wr = [.cmd 0x20399] := by decide
theorem witness_EveryStepKeepsThePortInvariant :
    State.reset.Inv ∧ ∃ t, step State.reset = .next t :=
  ⟨⟨fun p k hk => (by cases p <;> cases hk), rfl⟩, _, rfl⟩

end Sys2Proof.Tests
end

section
/-! PROOFS. What the operations leave of the CORE's own state (00_scope.md, rule R11). -/

namespace Sys2Proof.Machine

/-- The cursor bits are out of reach of every operation that delivers no received byte, INIT apart; unlike `State.seq`
this includes `pending_address` while `awaiting_data` is 0 (R11, R31). -/
theorem exec_keeps_cursor_bits {i : Instr} {s t : State} (h : exec i s = .next t) (hinit : i ≠ .init)
    (hbyte : ∀ b, i ≠ .onByteReceived b) (hpair : ∀ a v, i ≠ .pair a v) :
    t.awaitingData = s.awaitingData ∧ t.pendingAddress = s.pendingAddress := by
  cases i with
  | init => exact absurd rfl hinit
  | read a => cases h.symm.trans (exec_read a s); simp
  | write a v => cases h.symm.trans (exec_write a v s); simp
  | setDigitalSnapshot v => cases h.symm.trans (exec_setDigitalSnapshot v s); simp
  | setAnalogChannel c v =>
    cases h.symm.trans (exec_setAnalogChannel c v s)
    cases analogAddress c <;> simp
  | setActive v => cases h.symm.trans (exec_setActive v s); simp
  | getAndAckChange => cases h.symm.trans (exec_getAndAckChange s); simp
  | onByteReceived b => exact absurd rfl (hbyte b)
  | pair a v => exact absurd rfl (hpair a v)

/-- Bank writes to other addresses than the active one keep the flag (R45, R136). -/
theorem writeAll_keeps_notify {ws : List (Byte × Byte)} (h : ∀ v, (Config.activeAddr, v) ∉ ws) (s : State) :
    (writeAll ws s).notify = s.notify := by
  have hany : ws.any (fun w => decide (w.1 = Config.activeAddr)) = false :=
    List.any_eq_false.mpr fun w hw hactive => h w.2 (of_decide_eq_true hactive ▸ hw)
  rw [writeAll_notify, hany, Bool.false_or]

/-- Settles O22: the cursor clause by cases on the operation, the flag and the register clause from the bank writes that
`exec_spec` gives for every operation. -/
theorem operationsWriteOnlyTheStateTheirRulesName : Obligations.OperationsWriteOnlyTheStateTheirRulesName := by
  intro i s t h hinit
  obtain ⟨t', h', hx, hnotify, -⟩ := exec_spec i s hinit
  cases h.symm.trans h'
  refine ⟨exec_keeps_cursor_bits h hinit, fun hack hactive => ?_, fun hnone => ?_⟩
  · rw [hnotify, if_neg hack, writeAll_keeps_notify hactive]
  · rw [hx, hnone, writeAll_nil]

end Sys2Proof.Machine
end

section
/-! PROOFS. `MemRead` and `MemWrite` as READ and WRITE use them (20_memory.md, rules R44, R45). -/

namespace Sys2Proof.Machine

/-- Settles O14: the meaning of READ is its equation, and `MemRead` has one equation in range and one out of range. -/
theorem readReturnsTheStoredByteOrTheSentinel : Obligations.ReadReturnsTheStoredByteOrTheSentinel :=
  fun a s => ⟨exec_read a s, fun h => memRead_of_lt h, fun h => memRead_of_le h⟩

/-- Settles O15: `MemWrite` has one equation in range and one out of range, and WRITE only adds the response to it. -/
theorem writeStoresInRangeAndFlagsTheActiveAddress : Obligations.WriteStoresInRangeAndFlagsTheActiveAddress := by
  refine fun a v s => ⟨fun h => ⟨memWrite_of_lt h, ?_⟩, fun h => ⟨memWrite_of_le h, ?_⟩⟩
  · rw [exec_write, memWrite_of_lt h]; rfl
  · rw [exec_write, memWrite_of_le h]; rfl

end Sys2Proof.Machine
end

section
/-! PROOFS. What an operation does to the CORE and answers depends on the CORE's own state alone, and a step is the granted
operation applied to it (20_memory.md, rules R51, R52, R55). -/

namespace Sys2Proof.Machine

/-! ### Equal CORE states -/

theorem SameCore.refl (s : State) : SameCore s s := ⟨rfl, rfl, rfl, rfl⟩

theorem SameCore.symm {s t : State} (h : SameCore s t) : SameCore t s := by
  obtain ⟨hx, hn, hd, hp⟩ := h
  exact ⟨hx.symm, hn.symm, hd.symm, hp.symm⟩

theorem SameCore.trans {s t u : State} (h : SameCore s t) (h' : SameCore t u) : SameCore s u := by
  obtain ⟨hx, hn, hd, hp⟩ := h
  obtain ⟨hx', hn', hd', hp'⟩ := h'
  exact ⟨hx'.trans hx, hn'.trans hn, hd'.trans hd, hp'.trans hp⟩

theorem SameCore.seq_eq {s t : State} (h : SameCore s t) : t.seq = s.seq := by
  obtain ⟨-, -, hd, hp⟩ := h
  simp only [State.seq, hd, hp]

theorem SameCore.memRead_eq {s t : State} (h : SameCore s t) (a : Byte) : memRead a t = memRead a s := by
  obtain ⟨hx, -⟩ := h
  exact memRead_congr hx a

theorem SameCore.ackResponse_eq {s t : State} (h : SameCore s t) : ackResponse t = ackResponse s := by
  obtain ⟨-, hn, -⟩ := id h
  simp only [ackResponse, activeValue, h.memRead_eq, hn]

theorem sameCore_sample (s : State) : SameCore s (sample s) :=
  ⟨sample_x s, sample_notify s, sample_awaitingData s, sample_pendingAddress s⟩

/-! ### Operations keep equal CORE states equal -/

theorem SameCore.respond {s t : State} (h : SameCore s t) (r r' : Response) :
    SameCore (respond r s) (respond r' t) := h

theorem SameCore.initCore {s t : State} (h : SameCore s t) (c : Bool) : SameCore (initCore c s) (initCore c t) := by
  obtain ⟨-, -, hd, hp⟩ := h
  exact ⟨rfl, rfl, by simp [hd], by simp [hp]⟩

theorem SameCore.memWrite {s t : State} (h : SameCore s t) (a v : Byte) :
    SameCore (memWrite a v s) (memWrite a v t) := by
  obtain ⟨hx, hn, hd, hp⟩ := h
  obtain ⟨hx', hn'⟩ := memWrite_congr hx hn a v
  exact ⟨hx', hn', by simp [hd], by simp [hp]⟩

theorem SameCore.receiveByte {s t : State} (h : SameCore s t) (b : Byte) :
    SameCore (receiveByte b s) (receiveByte b t) := by
  obtain ⟨hx, hn, hd, hp⟩ := id h
  cases hs : s.awaitingData with
  | false => simp [Machine.receiveByte, hd, hs, SameCore, hx, hn]
  | true =>
    obtain ⟨hx', hn', -, hp'⟩ := h.memWrite s.pendingAddress b
    simp only [Machine.receiveByte, hd, hs, hp, if_true]
    exact ⟨hx', hn', rfl, hp'⟩

theorem SameCore.ackFlag {s t : State} (h : SameCore s t) : SameCore (ackFlag s) (ackFlag t) := by
  obtain ⟨hx, -, hd, hp⟩ := h
  exact ⟨hx, rfl, hd, hp⟩

/-- An operation's effect on the CORE and its response are a function of the CORE's state: ports, environment and counters
have no say (R52). -/
theorem exec_sameCore {s t : State} (h : SameCore s t) (i : Instr) :
    ∃ s' t', exec i s = .next s' ∧ exec i t = .next t' ∧ SameCore s' t' ∧ t'.resp = s'.resp := by
  cases i with
  | init => exact ⟨_, _, exec_init s, exec_init t, (h.initCore _).respond _ _, rfl⟩
  | read a => exact ⟨_, _, exec_read a s, exec_read a t, h.respond _ _, congrArg Response.rdata (h.memRead_eq a)⟩
  | write a v => exact ⟨_, _, exec_write a v s, exec_write a v t, (h.memWrite a v).respond _ _, rfl⟩
  | setDigitalSnapshot v =>
    exact ⟨_, _, exec_setDigitalSnapshot v s, exec_setDigitalSnapshot v t, (h.memWrite _ v).respond _ _, rfl⟩
  | setAnalogChannel c v =>
    refine ⟨_, _, exec_setAnalogChannel c v s, exec_setAnalogChannel c v t, ?_, rfl⟩
    cases analogAddress c with
    | none => exact h.respond _ _
    | some a => exact (h.memWrite a v).respond _ _
  | setActive v => exact ⟨_, _, exec_setActive v s, exec_setActive v t, (h.memWrite _ v).respond _ _, rfl⟩
  | getAndAckChange =>
    exact ⟨_, _, exec_getAndAckChange s, exec_getAndAckChange t, h.ackFlag.respond _ _, h.ackResponse_eq⟩
  | onByteReceived b =>
    exact ⟨_, _, exec_onByteReceived b s, exec_onByteReceived b t, (h.receiveByte b).respond _ _, rfl⟩
  | pair a v =>
    exact ⟨_, _, exec_pair a v s, exec_pair a v t, ((h.receiveByte a).receiveByte v).respond _ _, rfl⟩

/-- INIT included, no operation reaches the ports, the environment, the grant line or the counters. -/
theorem exec_sameSurroundings {i : Instr} {s t : State} (h : exec i s = .next t) : SameSurroundings s t := by
  by_cases hi : i = .init
  · subst hi
    obtain ⟨t', h', -, -, -, -, -, hsame⟩ := exec_init_spec s
    cases h.symm.trans h'
    exact hsame
  · obtain ⟨t', h', -, -, -, -, hsame⟩ := exec_spec i s hi
    cases h.symm.trans h'
    exact hsame

/-! ### One step as one operation on the CORE -/

/-- Every step answers a next state (R106, R150). -/
theorem step_next (s : State) : ∃ t, step s = .next t := by
  rcases step_cases s with ⟨-, h⟩ | ⟨-, -, h⟩ | ⟨p, r, -, -, h⟩
  · exact ⟨_, h⟩
  · exact ⟨_, h⟩
  · exact h ▸ exec_next _ _

/-- A step uses up one entry of the environment's list. -/
theorem step_inputs {s t : State} (h : step s = .next t) : t.inputs = s.inputs.tail := by
  rcases step_cases s with ⟨-, h'⟩ | ⟨-, -, h'⟩ | ⟨p, r, -, -, h'⟩
  · cases h.symm.trans h'; exact powerOnReset_inputs s
  · cases h.symm.trans h'; exact sample_inputs s
  · obtain ⟨-, hin, -⟩ := exec_sameSurroundings (h'.symm.trans h)
    exact hin.trans (sample_inputs s)

/-- Without `rst` a step either grants nothing and leaves the CORE as it is, or it is the granted operation applied to the
CORE's state before the step, with that operation's response (R52, R55). -/
theorem step_sameCore {s t : State} (hrst : s.input.rst = false) (h : step s = .next t) :
    (granted s = none ∧ t.gnt = none ∧ SameCore s t) ∨
      ∃ i u, granted s = some i ∧ t.gnt ≠ none ∧ exec i s = .next u ∧ SameCore u t ∧ t.resp = u.resp := by
  rcases step_cases s with ⟨hrst', -⟩ | ⟨-, hidle, h'⟩ | ⟨p, r, -, harb, h'⟩
  · exact absurd (hrst.symm.trans hrst') (by decide)
  · cases h.symm.trans h'
    exact .inl ⟨by simp [granted, hrst, fetch, arbitrate_none.mpr hidle], rfl, sameCore_sample s⟩
  · have hcore : SameCore s (grant p (sample s)) := sameCore_sample s
    obtain ⟨u, t', hu, ht', hsame, hresp⟩ := exec_sameCore hcore (decode r.word)
    cases (h'.symm.trans h).symm.trans ht'
    obtain ⟨-, -, hgnt, -⟩ := exec_sameSurroundings ht'
    exact .inr ⟨_, u, by simp [granted, hrst, fetch, harb], by simp [hgnt], hu, hsame, hresp⟩

/-! ### Unfolding runs by one step -/

theorem run_succ {s s' : State} (h : step s = .next s') (k : Nat) :
    Sys2Proof.core.run (k + 1) s = Sys2Proof.core.run k s' := by
  have hcore : Sys2Proof.core.step s = .next s' := h
  simp only [Host.Core.run, hcore]

theorem grantedOps_succ {s s' : State} (h : step s = .next s') (k : Nat) :
    grantedOps (k + 1) s = (granted s).toList ++ grantedOps k s' := by
  rw [grantedOps, h]

theorem grantedResponses_succ {s s' : State} (h : step s = .next s') (k : Nat) :
    grantedResponses (k + 1) s = (if s'.gnt = none then [] else [s'.resp]) ++ grantedResponses k s' := by
  rw [grantedResponses, h]

theorem History.run_succ {s s' : State} (h : step s = .next s') (g : History) (k : Nat) :
    g.run (k + 1) s =
      (if s.input.rst then History.start else (granted s).elim g g.after).run k s' := by
  rw [History.run, h]

theorem applyOps_cons {i : Instr} {s t : State} (h : exec i s = .next t) (is : List Instr) :
    applyOps (i :: is) s = applyOps is t := by
  rw [applyOps, h]

theorem responses_cons {i : Instr} {s t : State} (h : exec i s = .next t) (is : List Instr) :
    responses (i :: is) s = t.resp :: responses is t := by
  rw [responses, h]

/-- The environment's coming step asserts no `rst` when none of its steps does. -/
theorem input_rst_eq_false {s : State} (h : ∀ e ∈ s.inputs, e.rst = false) : s.input.rst = false := by
  unfold State.input
  cases hin : s.inputs with
  | nil => rfl
  | cons e es => exact h e (hin ▸ List.mem_cons_self)

/-- A run without `rst`, told from any state `s'` with the CORE of its start: the granted operations in serial order end
in the run's CORE state and give its responses (R52). -/
theorem run_serial (k : Nat) {s s' t : State} (hsame : SameCore s s') (hrst : ∀ e ∈ s.inputs, e.rst = false)
    (hrun : Sys2Proof.core.run k s = .next t) :
    (∃ u, applyOps (grantedOps k s) s' = .next u ∧ SameCore u t) ∧
      responses (grantedOps k s) s' = grantedResponses k s := by
  induction k generalizing s s' with
  | zero => cases hrun; exact ⟨⟨s', rfl, hsame.symm⟩, rfl⟩
  | succ k ih =>
    obtain ⟨s1, hstep⟩ := step_next s
    rw [run_succ hstep] at hrun
    have hrst1 : ∀ e ∈ s1.inputs, e.rst = false := fun e he =>
      hrst e (List.mem_of_mem_tail (step_inputs hstep ▸ he))
    rw [grantedOps_succ hstep, grantedResponses_succ hstep]
    rcases step_sameCore (input_rst_eq_false hrst) hstep with
      ⟨hgr, hgnt, hcore⟩ | ⟨i, u, hgr, hgnt, hexec, hcore, hresp⟩
    · simpa [hgr, hgnt] using ih (hcore.symm.trans hsame) hrst1 hrun
    · obtain ⟨u', v, hu', hv, hcore', hresp'⟩ := exec_sameCore hsame i
      cases hexec.symm.trans hu'
      obtain ⟨happly, hresps⟩ := ih (hcore.symm.trans hcore') hrst1 hrun
      simp [hgr, hgnt, applyOps_cons hv, responses_cons hv, happly, hresps, hresp, hresp']

end Sys2Proof.Machine
end

section
/-! PROOFS. The bank as the history of its writes: what a READ returns is the latest write since reset or INIT
(20_memory.md, rule R52). -/

namespace Sys2Proof.Machine

/-- The history tells the state's cursor and what every address reads (R52). -/
structure History.Tells (h : History) (s : State) : Prop where
  seq_eq : s.seq = h.seq
  memRead_eq : ∀ a, memRead a s = h.read a

theorem History.Tells.of_sameCore {h : History} {s t : State} (ht : h.Tells s) (hsame : SameCore s t) : h.Tells t :=
  ⟨hsame.seq_eq.trans ht.seq_eq, fun a => (hsame.memRead_eq a).trans (ht.memRead_eq a)⟩

/-- After reset the empty history tells the state (R36). -/
theorem start_tells_reset : History.start.Tells State.reset := by
  refine ⟨rfl, fun a => ?_⟩
  by_cases ha : a.toNat < Config.N
  · simp [memRead_of_lt ha, History.read, validAddr, ha, State.reset, History.start, latest]
  · simp [memRead_of_le (Nat.not_lt.mp ha), History.read, validAddr, ha]

/-- `MemWrite` puts its access in front of the log. -/
theorem memRead_memWrite_log {q : Seq} {log : List (Byte × Byte)} {s : State}
    (h : ∀ b, memRead b s = History.read ⟨q, log⟩ b) (w : Byte × Byte) (b : Byte) :
    memRead b (memWrite w.1 w.2 s) = History.read ⟨q, w :: log⟩ b := by
  rw [memRead_memWrite, h b]
  by_cases hw : w.1 = b
  · subst hw
    by_cases hv : w.1.toNat < Config.N <;> simp [History.read, validAddr, latest, hv]
  · have hb : b ≠ w.1 := fun e => hw e.symm
    simp [History.read, latest, hw, hb]

/-- Bank writes in order go in front of the log, the last of them first. -/
theorem memRead_writeAll_log (ws : List (Byte × Byte)) {q : Seq} {log : List (Byte × Byte)} {s : State}
    (h : ∀ b, memRead b s = History.read ⟨q, log⟩ b) (b : Byte) :
    memRead b (writeAll ws s) = History.read ⟨q, ws.reverse ++ log⟩ b := by
  induction ws generalizing log s with
  | nil => exact h b
  | cons w ws ih => simpa using ih (memRead_memWrite_log h w)

/-- INIT starts the history anew, from any state and whatever the history was (R52, R100). -/
theorem exec_init_tells {s t : State} (h : History) (hexec : exec .init s = .next t) : (h.after .init).Tells t := by
  obtain ⟨t', hexec', hx, hn, hd, hp, -⟩ := exec_init_spec s
  cases hexec.symm.trans hexec'
  have hreset : SameCore State.reset t := ⟨hx, hn, hd, hp⟩
  exact start_tells_reset.of_sameCore hreset

/-- Every operation keeps the history telling the state. -/
theorem exec_tells {h : History} {i : Instr} {s t : State} (hs : h.Tells s) (hexec : exec i s = .next t) :
    (h.after i).Tells t := by
  by_cases hi : i = .init
  · subst hi; exact exec_init_tells h hexec
  · obtain ⟨hseq, hread⟩ := hs
    obtain ⟨t', hexec', hx, -, hcur, -, -⟩ := exec_spec i s hi
    cases hexec.symm.trans hexec'
    refine ⟨hcur.trans (by rw [hseq]; rfl), fun a => ?_⟩
    rw [memRead_congr hx, memRead_writeAll_log (writesOf s.seq i) hread, hseq]
    simp [History.read, History.after, hi]

/-- Operations in serial order keep the history telling the state (R52). -/
theorem applyOps_tells (ops : List Instr) {h : History} {s : State} (hs : h.Tells s) :
    ∃ t, applyOps ops s = .next t ∧ (ops.foldl History.after h).Tells t := by
  induction ops generalizing h s with
  | nil => exact ⟨s, rfl, hs⟩
  | cons i is ih =>
    obtain ⟨s1, hexec⟩ := exec_next i s
    obtain ⟨t, happly, ht⟩ := ih (exec_tells hs hexec)
    exact ⟨t, (applyOps_cons hexec is).trans happly, ht⟩

/-- A step keeps the history telling the state: `rst` starts it anew, a grant adds its operation (R52, R170). -/
theorem step_tells {h : History} {s t : State} (hs : h.Tells s) (hstep : step s = .next t) :
    (if s.input.rst then History.start else (granted s).elim h h.after).Tells t := by
  cases hrst : s.input.rst with
  | true =>
    have hreset : SameCore State.reset (powerOnReset s) := ⟨rfl, rfl, rfl, rfl⟩
    have ht : step s = .next (powerOnReset s) := by simp [step, hrst]
    cases hstep.symm.trans ht
    exact start_tells_reset.of_sameCore hreset
  | false =>
    rcases step_sameCore hrst hstep with ⟨hgr, -, hcore⟩ | ⟨i, u, hgr, -, hexec, hcore, -⟩
    · simpa [hgr] using hs.of_sameCore hcore
    · simpa [hgr] using (exec_tells hs hexec).of_sameCore hcore

/-- A run keeps the history telling the state, resets inside it or not (R52, R170). -/
theorem run_tells (k : Nat) {h : History} {s t : State} (hs : h.Tells s)
    (hrun : Sys2Proof.core.run k s = .next t) : (h.run k s).Tells t := by
  induction k generalizing h s with
  | zero => cases hrun; exact hs
  | succ k ih =>
    obtain ⟨s1, hstep⟩ := step_next s
    rw [run_succ hstep] at hrun
    rw [History.run_succ hstep]
    exact ih (step_tells hs hstep) hrun

/-- READ answers what the history says of its address. -/
theorem exec_read_of_tells {h : History} {s : State} (hs : h.Tells s) (a : Byte) :
    ∃ u, exec (.read a) s = .next u ∧ u.resp = .rdata (h.read a) :=
  ⟨_, exec_read a s, congrArg Response.rdata (hs.memRead_eq a)⟩

/-- Settles O37: the serial clause by `run_serial`, the clauses about READ from the history that tells the state, kept by
every operation and by every step. -/
theorem runsAreSerialAndReadsReturnTheLatestWrite : Obligations.RunsAreSerialAndReadsReturnTheLatestWrite := by
  refine ⟨fun k s t hrst hrun => run_serial k (SameCore.refl s) hrst hrun, fun ops a => ?_, fun s ops a => ?_,
    fun k s t a hreset hrun => ?_⟩
  · obtain ⟨t, happly, ht⟩ := applyOps_tells ops start_tells_reset
    obtain ⟨u, hu, hresp⟩ := exec_read_of_tells ht a
    exact ⟨t, u, happly, hu, hresp⟩
  · obtain ⟨s1, hinit⟩ := exec_next .init s
    obtain ⟨t, happly, ht⟩ := applyOps_tells ops (exec_init_tells ⟨s.seq, []⟩ hinit)
    obtain ⟨u, hu, hresp⟩ := exec_read_of_tells ht a
    exact ⟨t, u, (applyOps_cons hinit ops).trans happly, hu, hresp⟩
  · exact exec_read_of_tells (run_tells k (start_tells_reset.of_sameCore hreset) hrun) a

end Sys2Proof.Machine
end

section
/-! PROOFS. Totality of the operations and their responses, and accesses out of range (40_register_bank.md, rules R106,
R108). -/

namespace Sys2Proof.Machine

/-- What an operation answers belongs on the port that carries it: a value on `P_RD`, an option on `P_ACK`, nothing
elsewhere (R70, R82). -/
theorem responseFits_responseOf (i : Instr) (s : State) : responseFits (some i.port) (responseOf i s) = true := by
  cases i <;> rfl

/-- INIT included, every operation gives a next state that shows the operation's own response (R82, R106). -/
theorem exec_resp (i : Instr) (s : State) : ∃ t, exec i s = .next t ∧ t.resp = responseOf i s := by
  by_cases hi : i = .init
  · subst hi; exact ⟨_, exec_init s, rfl⟩
  · obtain ⟨t, h, -, -, -, hresp, -⟩ := exec_spec i s hi
    exact ⟨t, h, hresp⟩

/-- Settles O11: the response of every operation is `responseOf`, which fits the operation's port; a step is a reset, a
step without a grant, or an operation. -/
theorem everyOperationIsTotal : Obligations.EveryOperationIsTotal := by
  refine ⟨fun i s => ?_, step_next⟩
  obtain ⟨t, h, hresp⟩ := exec_resp i s
  exact ⟨t, h, hresp ▸ responseFits_responseOf i s⟩

/-- Settles O25: out of range `MemRead` is the sentinel and `MemWrite` the identity, and READ and WRITE only add the
response to them. -/
theorem outOfRangeAccessesHaveNoEffect : Obligations.OutOfRangeAccessesHaveNoEffect := by
  refine fun a v s h => ⟨⟨_, exec_read a s, congrArg Response.rdata (memRead_of_le h)⟩, _, exec_write a v s, ?_⟩
  rw [memWrite_of_le h]
  exact ⟨rfl, rfl, rfl⟩

end Sys2Proof.Machine
end

section
/-! PROOFS. Serial runs told by their bank writes, and byte streams paired by count (41_protocol_sequencer.md, rules R122,
R124). -/

namespace Sys2Proof.Machine

/-! ### A serial run as its bank writes and its cursor transitions -/

theorem writeAll_append (ws ws' : List (Byte × Byte)) (s : State) :
    writeAll (ws ++ ws') s = writeAll ws' (writeAll ws s) := List.foldl_append

/-- Two states with the same bank and flag have the same bank and flag after the same bank writes. -/
theorem writeAll_congr {s t : State} (hx : t.x = s.x) (hn : t.notify = s.notify) (ws : List (Byte × Byte)) :
    (writeAll ws t).x = (writeAll ws s).x ∧ (writeAll ws t).notify = (writeAll ws s).notify := by
  induction ws generalizing s t with
  | nil => exact ⟨hx, hn⟩
  | cons w ws ih =>
    obtain ⟨hx', hn'⟩ := memWrite_congr hx hn w.1 w.2
    exact ih hx' hn'

/-- Operations without INIT and GET_AND_ACK_CHANGE give the registers and the flag of all their bank writes, and leave the
cursor the transition table gives (R46, R122). -/
theorem applyOps_writeAll (ops : List Instr) (s : State) (hinit : .init ∉ ops) (hack : .getAndAckChange ∉ ops) :
    ∃ t, applyOps ops s = .next t ∧ t.x = (writeAll (writesOfAll s.seq ops) s).x ∧
      t.notify = (writeAll (writesOfAll s.seq ops) s).notify ∧ t.seq = ops.foldl cursorAfter s.seq := by
  induction ops generalizing s with
  | nil => exact ⟨s, rfl, rfl, rfl, rfl⟩
  | cons i is ih =>
    obtain ⟨hi, his⟩ := List.ne_and_not_mem_of_not_mem_cons hinit
    obtain ⟨hi', his'⟩ := List.ne_and_not_mem_of_not_mem_cons hack
    obtain ⟨s1, hexec, hx1, hn1, hseq1, -, -⟩ := exec_spec i s hi.symm
    rw [if_neg hi'.symm] at hn1
    obtain ⟨t, happly, hx, hn, hseq⟩ := ih s1 his his'
    obtain ⟨hxw, hnw⟩ := writeAll_congr hx1 hn1 (writesOfAll (cursorAfter s.seq i) is)
    rw [hseq1] at hx hn hseq
    rw [writesOfAll, writeAll_append]
    exact ⟨t, (applyOps_cons hexec is).trans happly, hx.trans hxw, hn.trans hnw, hseq⟩

/-! ### Byte streams -/

/-- WRITEs perform their own accesses, wherever the cursor stands. -/
theorem writesOfAll_writes (q : Seq) (ws : List (Byte × Byte)) :
    writesOfAll q (ws.map fun w => .write w.1 w.2) = ws := by
  induction ws with
  | nil => rfl
  | cons w ws ih => exact congrArg (w :: ·) ih

/-- From AwaitingAddress the bank writes of a byte stream are its pairs by count (R124). -/
theorem writesOfAll_bytes (bs : List Byte) : writesOfAll .awaitingAddress (Instr.bytes bs) = pairsOf bs := by
  induction bs using pairsOf.induct with
  | case1 a v bs ih => exact congrArg ((a, v) :: ·) ih
  | case2 b => rfl
  | case3 => rfl

/-- Two more bytes in front of a stream leave the cursor it ends with: the count keeps its parity, and the last byte of an
odd stream is one of its own. -/
theorem cursorOfBytes_cons_cons (a v : Byte) (bs : List Byte) : cursorOfBytes (a :: v :: bs) = cursorOfBytes bs := by
  have hparity : (a :: v :: bs).length % 2 = bs.length % 2 := Nat.add_mod_right bs.length 2
  simp only [cursorOfBytes, hparity]
  cases bs with
  | nil => rfl
  | cons b bs => simp only [List.getLastD_cons]

/-- From AwaitingAddress the transition table takes a byte stream to the cursor its count and last byte decide (R122,
R124). -/
theorem foldl_cursorAfter_bytes (bs : List Byte) :
    (Instr.bytes bs).foldl cursorAfter .awaitingAddress = cursorOfBytes bs := by
  induction bs using pairsOf.induct with
  | case1 a v bs ih => exact ih.trans (cursorOfBytes_cons_cons a v bs).symm
  | case2 b => rfl
  | case3 => rfl

/-- Settles O34: the byte stream and the WRITEs of its pairs perform the same bank writes, `pairsOf bs`, and the cursor is
the table's fold over the bytes. -/
theorem byteStreamsArePairedByCountAlone : Obligations.ByteStreamsArePairedByCountAlone := by
  intro bs s hs
  obtain ⟨t, ht, htx, htn, htseq⟩ :=
    applyOps_writeAll (Instr.bytes bs) s (by simp [Instr.bytes]) (by simp [Instr.bytes])
  obtain ⟨u, hu, hux, hun, -⟩ :=
    applyOps_writeAll ((pairsOf bs).map fun w => .write w.1 w.2) s (by simp) (by simp)
  rw [hs, writesOfAll_bytes] at htx htn
  rw [writesOfAll_writes] at hux hun
  rw [hs, foldl_cursorAfter_bytes] at htseq
  exact ⟨t, u, ht, hu, htx.trans hux.symm, htn.trans hun.symm, htseq⟩

end Sys2Proof.Machine
end

section
/-! PROOFS. When the flag is set, when it is cleared, and what an acknowledgment delivers (42_change_notifier.md, rules R136
to R139). -/

namespace Sys2Proof.Machine

/-! ### The flag after bank writes, after an operation, after a step -/

/-- After bank writes the flag is set if one of them was at the active address or it was set before (R136). -/
theorem writeAll_notify_eq_true {ws : List (Byte × Byte)} {s : State} :
    (writeAll ws s).notify = true ↔ (∃ v, (Config.activeAddr, v) ∈ ws) ∨ s.notify = true := by
  simp [writeAll_notify]

/-- After any operation, INIT included, the flag is set exactly if the operation wrote the active address, or if the flag
was set and the operation is neither of the two that clear it (R136, R139). -/
theorem exec_notify_eq_true {i : Instr} {s t : State} (h : exec i s = .next t) :
    t.notify = true ↔ (∃ v, (Config.activeAddr, v) ∈ writesOf s.seq i) ∨
      (s.notify = true ∧ i ≠ .getAndAckChange ∧ i ≠ .init) := by
  by_cases hinit : i = .init
  · subst hinit
    obtain ⟨t', h', -, hnotify, -⟩ := exec_init_spec s
    cases h.symm.trans h'
    simp [hnotify, writesOf]
  · obtain ⟨t', h', -, hnotify, -⟩ := exec_spec i s hinit
    cases h.symm.trans h'
    by_cases hack : i = .getAndAckChange
    · subst hack
      simp [hnotify, writesOf]
    · rw [hnotify, if_neg hack, writeAll_notify_eq_true]
      simp [hinit, hack]

/-- After any step the flag is set exactly if the granted operation wrote the active address, or if the flag was set and
the step is none of the three that clear it (R136, R139). -/
theorem step_notify_eq_true {s t : State} (h : step s = .next t) :
    t.notify = true ↔ (∃ i v, granted s = some i ∧ (Config.activeAddr, v) ∈ writesOf s.seq i) ∨
      (s.notify = true ∧ s.input.rst = false ∧ granted s ≠ some .getAndAckChange ∧ granted s ≠ some .init) := by
  cases hrst : s.input.rst with
  | true =>
    have h' : step s = .next (powerOnReset s) := by simp [step, hrst]
    cases h.symm.trans h'
    simp [granted, hrst]
  | false =>
    rcases step_sameCore hrst h with ⟨hgr, -, -, hnotify, -⟩ | ⟨i, u, hgr, -, hexec, ⟨-, hnotify, -⟩, -⟩
    · simp [hgr, hnotify]
    · rw [hnotify, exec_notify_eq_true hexec]
      simp [hgr]

/-- Settles O28: both directions are read off the flag after a step. -/
theorem flagIsSetExactlyByWritesOfTheActiveAddress : Obligations.FlagIsSetExactlyByWritesOfTheActiveAddress := by
  intro s t h
  refine ⟨fun hwrite => (step_notify_eq_true h).mpr (.inl hwrite), fun hclear hset => ?_⟩
  rcases (step_notify_eq_true h).mp hset with hwrite | ⟨hset', -⟩
  · exact hwrite
  · cases hclear.symm.trans hset'

/-- A step that clears the flag writes nothing: under `rst` nothing is granted, and GET_AND_ACK_CHANGE and INIT perform no
`MemWrite` (R24, R139). -/
theorem writesOf_granted_eq_nil {s : State} {i : Instr} (hgr : granted s = some i)
    (hclears : s.input.rst = true ∨ granted s = some .getAndAckChange ∨ granted s = some .init) (q : Seq) :
    writesOf q i = [] := by
  rcases hclears with hrst | hack | hinit
  · simp [granted, hrst] at hgr
  · cases hgr.symm.trans hack; rfl
  · cases hgr.symm.trans hinit; rfl

/-- From a set flag, a step leaves it clear exactly if it is one of the three that clear it (R139). -/
theorem step_notify_eq_false {s t : State} (h : step s = .next t) (hset : s.notify = true) :
    t.notify = false ↔ s.input.rst = true ∨ granted s = some .getAndAckChange ∨ granted s = some .init := by
  constructor
  · intro hclear
    by_contra hnot
    have hkept : s.input.rst = false ∧ granted s ≠ some .getAndAckChange ∧ granted s ≠ some .init := by
      simpa using hnot
    cases hclear.symm.trans ((step_notify_eq_true h).mpr (.inr ⟨hset, hkept⟩))
  · intro hclears
    rw [Bool.eq_false_iff]
    intro hset'
    rcases (step_notify_eq_true h).mp hset' with ⟨i, v, hgr, hwrite⟩ | ⟨-, hrst, hack, hinit⟩
    · rw [writesOf_granted_eq_nil hgr hclears] at hwrite
      cases hwrite
    · simp [hrst, hack, hinit] at hclears

/-! ### Serial runs and their writes of the active address -/

/-- INIT included, an operation leaves the cursor the transition table gives (R122). -/
theorem exec_seq {i : Instr} {s t : State} (h : exec i s = .next t) : t.seq = cursorAfter s.seq i := by
  by_cases hinit : i = .init
  · subst hinit
    cases h.symm.trans (exec_init s)
    rfl
  · obtain ⟨t', h', -, -, hseq, -⟩ := exec_spec i s hinit
    cases h.symm.trans h'
    exact hseq

theorem mem_activeWrites {q : Seq} {ops : List Instr} {v : Byte} :
    v ∈ activeWrites q ops ↔ (Config.activeAddr, v) ∈ writesOfAll q ops := by
  simp [activeWrites]

/-- A clear flag stays clear through any operations, INIT and acknowledgments among them, that do not write the active
address (R136). -/
theorem applyOps_keeps_notify_clear (ops : List Instr) {s t : State}
    (hwrites : ∀ v, (Config.activeAddr, v) ∉ writesOfAll s.seq ops) (hclear : s.notify = false)
    (happly : applyOps ops s = .next t) : t.notify = false := by
  induction ops generalizing s with
  | nil => cases happly; exact hclear
  | cons i is ih =>
    obtain ⟨s1, hexec⟩ := exec_next i s
    rw [applyOps_cons hexec] at happly
    simp only [writesOfAll, List.mem_append, not_or] at hwrites
    have hclear1 : s1.notify = false := by
      rw [Bool.eq_false_iff, Ne, exec_notify_eq_true hexec]
      simp [hclear, hwrites]
    exact ih (fun v => exec_seq hexec ▸ (hwrites v).2) hclear1 happly

/-- The last value written at the active address is what it reads after all bank writes (R25). -/
theorem memRead_activeAddr_writeAll {q : Seq} {ops : List Instr} {v : Byte}
    (hlast : (activeWrites q ops).getLast? = some v) (s : State) :
    memRead Config.activeAddr (writeAll (writesOfAll q ops) s) = v := by
  have hfind : ((writesOfAll q ops).reverse.find? fun w => decide (w.1 = Config.activeAddr)).map Prod.snd = some v := by
    rw [← hlast, activeWrites, List.getLast?_map, List.getLast?_eq_head?_reverse, ← List.filter_reverse,
      List.head?_filter]
  obtain ⟨w, hw, rfl⟩ := Option.map_eq_some_iff.mp hfind
  rw [memRead_writeAll _ _ _ (by decide), hw]
  rfl

/-! ### What an acknowledgment delivers -/

/-- With the flag set an acknowledgment delivers the active register's value and leaves the flag clear (R137). -/
theorem exec_ack_of_set {s : State} (hset : s.notify = true) :
    ∃ u, exec .getAndAckChange s = .next u ∧ u.resp = .chg (some (memRead Config.activeAddr s)) ∧
      u.notify = false :=
  ⟨_, exec_getAndAckChange s, by simp [ackResponse, hset, activeValue], rfl⟩

/-- With the flag clear an acknowledgment delivers nothing (R137). -/
theorem exec_ack_of_clear {s : State} (hclear : s.notify = false) :
    ∃ u, exec .getAndAckChange s = .next u ∧ u.resp = .chg none :=
  ⟨_, exec_getAndAckChange s, by simp [ackResponse, hclear]⟩

/-- Settles O29: the first clause is the flag's clearing by a step; in the second INIT clears the flag, the operations
after it keep it clear, and an acknowledgment of a clear flag delivers nothing. -/
theorem flagIsClearedExactlyByAckInitOrReset : Obligations.FlagIsClearedExactlyByAckInitOrReset := by
  refine ⟨fun s t h hset => step_notify_eq_false h hset, fun s t u ops hwrites happly hack => ?_⟩
  obtain ⟨s1, hinit, -, hclear1, -⟩ := exec_init_spec s
  rw [applyOps_cons hinit] at happly
  have hwrites1 : ∀ v, (Config.activeAddr, v) ∉ writesOfAll s1.seq ops := fun v hmem => by
    have hmem' : v ∈ activeWrites (cursorAfter s.seq .init) ops := mem_activeWrites.mpr (exec_seq hinit ▸ hmem)
    rw [hwrites] at hmem'
    cases hmem'
  obtain ⟨u', hack', hresp⟩ := exec_ack_of_clear (applyOps_keeps_notify_clear ops hwrites1 hclear1 happly)
  cases hack.symm.trans hack'
  exact hresp

/-- Settles O30: the operations leave the flag and the bank of their bank writes, so the flag is set and the active
register holds the last value written there; the first acknowledgment delivers it and clears the flag for the second. -/
theorem coalescedWritesGiveOneNotificationWithTheLastValue :
    Obligations.CoalescedWritesGiveOneNotificationWithTheLastValue := by
  intro s ops v hinit hack hlast
  obtain ⟨t, happly, hx, hnotify, -⟩ := applyOps_writeAll ops s hinit hack
  have hset : t.notify = true := by
    rw [hnotify, writeAll_notify_eq_true]
    exact .inl ⟨v, mem_activeWrites.mp (List.mem_of_getLast? hlast)⟩
  have hvalue : memRead Config.activeAddr t = v := (memRead_congr hx _).trans (memRead_activeAddr_writeAll hlast s)
  obtain ⟨u, hack1, hresp1, hclear⟩ := exec_ack_of_set hset
  obtain ⟨w, hack2, hresp2⟩ := exec_ack_of_clear hclear
  exact ⟨t, u, w, happly, hack1, hvalue ▸ hresp1, hack2, hresp2⟩

end Sys2Proof.Machine
end

section
/-! PROOFS. The two encodings read back: the fields of assembled words, the decoder on the encoder's words, and the
fields each operation uses (30_encoding.md, rules R73, R78 to R81). -/

namespace Sys2Proof

/-! ### Fields of assembled words -/

@[simp] theorem cmdOp_cmdWord (op : BitVec 3) (a v : Byte) : cmdOp (cmdWord op a v) = op :=
  (BitVec.extractLsb'_append_eq_of_le (by decide)).trans BitVec.extractLsb'_append_eq_left

@[simp] theorem cmdA_cmdWord (op : BitVec 3) (a v : Byte) : cmdA (cmdWord op a v) = a :=
  (BitVec.extractLsb'_append_eq_of_le (by decide)).trans BitVec.extractLsb'_append_eq_right

@[simp] theorem cmdV_cmdWord (op : BitVec 3) (a v : Byte) : cmdV (cmdWord op a v) = v :=
  BitVec.extractLsb'_append_eq_right

@[simp] theorem pairA_pairWord (a v : Byte) : pairA (pairWord a v) = a := BitVec.extractLsb'_append_eq_left

@[simp] theorem pairV_pairWord (a v : Byte) : pairV (pairWord a v) = v := BitVec.extractLsb'_append_eq_right

/-- A pair word is its two bytes and nothing else (R73). -/
theorem pairWord_pairA_pairV (w : PairWord) : pairWord (pairA w) (pairV w) = w :=
  (BitVec.extractLsb'_append_extractLsb'_eq_extractLsb' rfl).trans BitVec.extractLsb'_eq_self

/-- A byte in front of a word stands above the word's bits. -/
theorem toNat_append_eq_add {m n : Nat} (x : BitVec m) (y : BitVec n) :
    (x ++ y).toNat = x.toNat * 2 ^ n + y.toNat := by
  rw [BitVec.toNat_append, ← Nat.shiftLeft_add_eq_or_of_lt y.isLt, Nat.shiftLeft_eq]

theorem toNat_cmdWord (op : BitVec 3) (a v : Byte) :
    (cmdWord op a v).toNat = op.toNat * 65536 + a.toNat * 256 + v.toNat := by
  rw [cmdWord, toNat_append_eq_add, toNat_append_eq_add]
  omega

theorem toNat_pairWord (a v : Byte) : (pairWord a v).toNat = a.toNat * 256 + v.toNat :=
  toNat_append_eq_add a v

/-- Settles O3: the words are appended fields, so their numbers add up and each field is read back. -/
theorem wordsAreAssembledFromTheirFields : Obligations.WordsAreAssembledFromTheirFields :=
  ⟨fun op a v => ⟨toNat_cmdWord op a v, cmdOp_cmdWord op a v, cmdA_cmdWord op a v, cmdV_cmdWord op a v⟩,
    fun a v => ⟨toNat_pairWord a v, pairA_pairWord a v, pairV_pairWord a v⟩⟩

/-! ### The decoder on the encoder's words -/

/-- The decoder is a left inverse of the encoder (R79, R80). -/
@[simp] theorem decode_encode (i : Instr) : decode (encode i) = i := by
  cases i <;> simp [encode, decode, decodeCmd, decodePair]

/-- A format is read off its width (R73, R78). -/
theorem formatOfBits_width (f : Format) : formatOfBits f.width = some f := by cases f <;> decide

/-- The number of a presented word, at its format's width, is read back as that word (R73, R78). -/
theorem packetOfNumber_toNat (k : Packet) : packetOfNumber k.format.width k.toNat = .ok k := by
  simp only [packetOfNumber, formatOfBits_width]
  cases k with
  | cmd w =>
    have hfits : Format.cmd.fits w.toNat = true := decide_eq_true w.isLt
    simp [Packet.format, Packet.toNat, hfits]
  | pair w =>
    have hfits : Format.pair.fits w.toNat = true := decide_eq_true w.isLt
    simp [Packet.format, Packet.toNat, hfits]

/-- The table decoder reads an operation exactly from the number of a word that decodes to it. -/
theorem decodeTableWord_eq_some {nbits w : Nat} {i : Instr} :
    decodeTableWord nbits w = some i ↔ ∃ k, packetOfNumber nbits w = .ok k ∧ decode k = i := by
  cases h : packetOfNumber nbits w <;> simp [decodeTableWord, decodeNumber, h, Except.map]

/-- Settles O1: the decoder inverts the encoder on words, and a word's number is read back as the word. -/
theorem decodeOfEncodeIsTheOperation : Obligations.DecodeOfEncodeIsTheOperation :=
  fun i => ⟨decode_encode i, decodeTableWord_eq_some.mpr ⟨encode i, packetOfNumber_toNat _, decode_encode i⟩⟩

/-- Settles O4: nine closed words, evaluated. -/
theorem writtenOutWordsDecode : Obligations.WrittenOutWordsDecode := by
  unfold Obligations.WrittenOutWordsDecode
  decide

/-! ### The fields an operation uses -/

/-- The code of an operation (R79); a pair word has none, and its number here stands for nothing. -/
def Instr.opCode : Instr → BitVec 3
  | .init => 0
  | .read _ => 1
  | .write _ _ => 2
  | .setDigitalSnapshot _ => 3
  | .setAnalogChannel _ _ => 4
  | .setActive _ => 5
  | .getAndAckChange => 6
  | .onByteReceived _ => 7
  | .pair _ _ => 0

/-- There are eight codes (R78). -/
theorem opCode_cases (op : BitVec 3) :
    op = 0 ∨ op = 1 ∨ op = 2 ∨ op = 3 ∨ op = 4 ∨ op = 5 ∨ op = 6 ∨ op = 7 := by
  revert op
  decide

/-- The decoded operation has the word's code: no two codes are one operation (R79). -/
theorem opCode_decodeCmd (w : CmdWord) : (decodeCmd w).opCode = cmdOp w := by
  rcases opCode_cases (cmdOp w) with h | h | h | h | h | h | h | h <;> simp [decodeCmd, Instr.opCode, h]

/-- Words of one code are one operation exactly when they agree in the fields that operation uses (R79, R80). -/
theorem decodeCmd_eq_iff_of_cmdOp_eq {w w' : CmdWord} (hop : cmdOp w = cmdOp w') :
    decodeCmd w = decodeCmd w' ↔
      (cmdOp w = 1 ∨ cmdOp w = 2 ∨ cmdOp w = 4 → cmdA w = cmdA w') ∧
        (cmdOp w = 2 ∨ cmdOp w = 3 ∨ cmdOp w = 4 ∨ cmdOp w = 5 ∨ cmdOp w = 7 → cmdV w = cmdV w') := by
  rcases opCode_cases (cmdOp w) with h | h | h | h | h | h | h | h <;> simp [decodeCmd, h, ← hop]

theorem decodePair_eq_iff {w w' : PairWord} : decodePair w = decodePair w' ↔ w = w' := by
  refine ⟨fun h => ?_, congrArg decodePair⟩
  obtain ⟨ha, hv⟩ := Instr.pair.inj h
  rw [← pairWord_pairA_pairV w, ha, hv, pairWord_pairA_pairV]

/-- Settles O2: words that are one operation have one code, and for each code the operands are the fields it uses. -/
theorem decodingReadsExactlyTheFieldsInUse : Obligations.DecodingReadsExactlyTheFieldsInUse := by
  refine ⟨fun w w' => ⟨fun h => ?_, fun ⟨hop, hfields⟩ => (decodeCmd_eq_iff_of_cmdOp_eq hop).mpr hfields⟩,
    fun w w' => decodePair_eq_iff⟩
  have hop : cmdOp w = cmdOp w' := by rw [← opCode_decodeCmd, h, opCode_decodeCmd]
  exact ⟨hop, (decodeCmd_eq_iff_of_cmdOp_eq hop).mp h⟩

end Sys2Proof
end

section
/-! PROOFS. One step told by the words on the ports, the grant and the operation run; the invariant of the ports
(20_memory.md, rules R53, R55; 30_encoding.md, rules R70, R82). -/

namespace Sys2Proof.Machine

/-! ### What a step does -/

/-- Under `rst` a step gives the reset values (R170). -/
theorem step_of_rst {s : State} (hrst : s.input.rst = true) : step s = .next (powerOnReset s) := by
  simp [step, hrst]

/-- A step that grants request `r` of port `p`: what it runs and what it leaves (R55, R71). -/
structure Grants (s : State) (p : Port) (r : Request) (t : State) : Prop where
  arbitrate_eq : arbitrate (sample s).ports = some (p, r)
  granted_eq : granted s = some (decode r.word)
  exec_eq : exec (decode r.word) (grant p (sample s)) = .next t
  gnt_eq : t.gnt = some p
  ports_eq : t.ports = (sample s).ports.remove p
  tick_eq : t.tick = s.tick + 1
  serial_eq : t.serial = (sample s).serial

theorem Grants.pending_eq {s t : State} {p : Port} {r : Request} (h : Grants s p r t) :
    (sample s).ports.pending p = some r := (arbitrate_some h.arbitrate_eq).1

theorem Grants.due_le {s t : State} {p p' : Port} {r r' : Request} (h : Grants s p r t)
    (h' : (sample s).ports.pending p' = some r') : r.due ≤ r'.due := (arbitrate_some h.arbitrate_eq).2 p' r' h'

/-- What the arbiter picks the step grants. -/
theorem grants_of_arbitrate {s t : State} {p : Port} {r : Request} (hrst : s.input.rst = false)
    (harb : arbitrate (sample s).ports = some (p, r)) (hstep : step s = .next t) : Grants s p r t := by
  have hexec : exec (decode r.word) (grant p (sample s)) = .next t := by
    simpa [step, hrst, fetch, harb] using hstep
  obtain ⟨hports, -, hgnt, htick, hserial⟩ := exec_sameSurroundings hexec
  exact ⟨harb, by simp [granted, hrst, fetch, harb], hexec, hgnt, hports, htick.trans (sample_tick s), hserial⟩

/-- Without `rst` a step has nothing pending and grants nothing, or it grants a pending request (R55). -/
theorem step_grant_cases {s t : State} (hrst : s.input.rst = false) (hstep : step s = .next t) :
    ((∀ p, (sample s).ports.pending p = none) ∧ granted s = none ∧ t = noGrant (sample s)) ∨
      ∃ p r, Grants s p r t := by
  rcases step_cases s with ⟨hrst', -⟩ | ⟨-, hidle, h⟩ | ⟨p, r, -, harb, -⟩
  · exact absurd (hrst.symm.trans hrst') (by decide)
  · cases hstep.symm.trans h
    exact .inl ⟨hidle, by simp [granted, hrst, fetch, arbitrate_none.mpr hidle], rfl⟩
  · exact .inr ⟨p, r, grants_of_arbitrate hrst harb hstep⟩

/-- With nothing pending at its grant, a step finds no word on any port and brings none. -/
theorem words_eq_nil_of_idle {s : State} {p : Port} (h : (sample s).ports.pending p = none) :
    s.ports.words p = [] ∧ s.arrivalsOn p = [] :=
  List.append_eq_nil_iff.mp ((sample_words s p).symm.trans (sample_pending_eq_none.mp h))

/-- The granted port's words, with those the step brings, are the granted word and what still waits (R53). -/
theorem Grants.words_self {s t : State} {p : Port} {r : Request} (h : Grants s p r t) :
    r.word :: t.ports.words p = s.ports.words p ++ s.arrivalsOn p := by
  rw [h.ports_eq, Ports.remove_words_self, ← Ports.words_of_pending h.pending_eq, sample_words]

/-- The other ports keep their words, with those the step brings behind them (R53). -/
theorem Grants.words_of_ne {s t : State} {p p' : Port} {r : Request} (h : Grants s p r t) (hne : p' ≠ p) :
    t.ports.words p' = s.ports.words p' ++ s.arrivalsOn p' := by
  rw [h.ports_eq, Ports.remove_words_of_ne _ hne, sample_words]

/-- Without `rst` every port's words, with those the step brings, are what the step grants there and what still waits,
whether the port is granted or not (R53, R55). -/
theorem step_words {s t : State} (hrst : s.input.rst = false) (hstep : step s = .next t) (p : Port) :
    (∃ k, t.gnt = some p ∧ granted s = some (decode k) ∧
      k :: t.ports.words p = s.ports.words p ++ s.arrivalsOn p) ∨
    (t.gnt ≠ some p ∧ t.ports.words p = s.ports.words p ++ s.arrivalsOn p) := by
  rcases step_grant_cases hrst hstep with ⟨-, -, rfl⟩ | ⟨p', r, h⟩
  · exact .inr ⟨by simp, sample_words s p⟩
  · by_cases hp : p = p'
    · subst hp
      exact .inl ⟨r.word, h.gnt_eq, h.granted_eq, h.words_self⟩
    · refine .inr ⟨?_, h.words_of_ne hp⟩
      rw [h.gnt_eq]
      exact fun e => hp (Option.some.inj e).symm

/-! ### The invariant of the ports -/

/-- What a step brings to a port that port carries (R70). -/
theorem portsCarry_sample {s : State} (h : PortsCarry s.ports) : PortsCarry (sample s).ports := by
  intro p k hk
  rw [sample_words] at hk
  rcases List.mem_append.mp hk with hk | hk
  · exact h p k hk
  · exact (List.mem_filter.mp hk).2

/-- Taking the granted request off its port leaves only words that were there. -/
theorem PortsCarry.remove {q : Ports} (h : PortsCarry q) (p : Port) : PortsCarry (q.remove p) := by
  intro p' k hk
  refine h p' k ?_
  by_cases hp : p' = p
  · subst hp
    rw [Ports.remove_words_self] at hk
    exact List.mem_append_right _ hk
  · rwa [Ports.remove_words_of_ne q hp] at hk

/-- Nothing is on the wrong port where there is nothing. -/
theorem portsCarry_empty : PortsCarry Ports.empty := fun p k hk => by simp at hk

/-- Settles O45: the ports are empty, and no response goes with no grant. -/
theorem portInvariantHoldsAtReset : Obligations.PortInvariantHoldsAtReset := ⟨portsCarry_empty, rfl⟩

/-- A grant from ports that carry their words answers on the granted port: the operation is one the port carries, and
its response fits the port that carries it (R70, R82). -/
theorem Grants.responseFits_eq {s t : State} {p : Port} {r : Request} (h : Grants s p r t)
    (hcarry : PortsCarry (sample s).ports) : responseFits t.gnt t.resp = true := by
  have hmem : r.word ∈ (sample s).ports.words p := Ports.words_of_pending h.pending_eq ▸ List.mem_cons_self
  have hport : (decode r.word).port = p := of_decide_eq_true (hcarry p r.word hmem)
  obtain ⟨t', hexec, hresp⟩ := exec_resp (decode r.word) (grant p (sample s))
  cases h.exec_eq.symm.trans hexec
  rw [h.gnt_eq, hresp, ← hport]
  exact responseFits_responseOf _ _

/-- Settles O46: reset empties the ports; without `rst` the presented words belong on their ports, a grant only takes a
word away, and its response is that of an operation the granted port carries. -/
theorem everyStepKeepsThePortInvariant : Obligations.EveryStepKeepsThePortInvariant := by
  rintro s t ⟨hcarry, -⟩ hstep
  cases hrst : s.input.rst with
  | true =>
    cases hstep.symm.trans (step_of_rst hrst)
    exact ⟨portsCarry_empty, rfl⟩
  | false =>
    rcases step_grant_cases hrst hstep with ⟨-, -, rfl⟩ | ⟨p, r, h⟩
    · exact ⟨portsCarry_sample hcarry, rfl⟩
    · exact ⟨h.ports_eq ▸ (portsCarry_sample hcarry).remove p, h.responseFits_eq (portsCarry_sample hcarry)⟩

/-! ### Steps with `rst`, steps without a grant, and the grant -/

/-- Settles O6: the step is the power-on reset. -/
theorem assertedResetHoldsTheResetState : Obligations.AssertedResetHoldsTheResetState :=
  fun _ hrst => ⟨_, step_of_rst hrst, ⟨rfl, rfl, rfl, rfl⟩, rfl, rfl, rfl⟩

/-- Settles O7: both leave every field of the CORE at its reset value. -/
theorem initAndPowerOnResetReachTheSameCoreState : Obligations.InitAndPowerOnResetReachTheSameCoreState := by
  intro s s' hrst
  obtain ⟨u, hu, hx, hnotify, hdata, haddr, -⟩ := exec_init_spec s'
  exact ⟨_, u, step_of_rst hrst, hu, hx, hnotify, hdata, haddr⟩

/-- Settles O8: `fetch` decodes the arbiter's choice, and the step runs what it fetches. -/
theorem stepAppliesTheGrantedDecodedOperation : Obligations.StepAppliesTheGrantedDecodedOperation := by
  intro s p r hrst harb
  obtain ⟨t, hstep⟩ := step_next s
  exact hstep.trans (grants_of_arbitrate hrst harb hstep).exec_eq.symm

/-- Settles O10: nothing pending means no word on any port and none presented, so the ports stay empty. -/
theorem stepWithNothingPendingChangesNothing : Obligations.StepWithNothingPendingChangesNothing := by
  intro s hrst hreq
  have hidle : ∀ p, (sample s).ports.pending p = none := fun p => Ports.req_eq_false.mp (hreq p)
  obtain ⟨t, hstep⟩ := step_next s
  rcases step_grant_cases hrst hstep with ⟨-, -, rfl⟩ | ⟨p, r, h⟩
  · have hports : (sample s).ports = s.ports := Ports.ext_line fun p => by
      rw [Ports.words_eq_nil.mp (sample_pending_eq_none.mp (hidle p)),
        Ports.words_eq_nil.mp (words_eq_nil_of_idle (hidle p)).1]
    exact ⟨_, hstep, sameCore_sample s, hports, rfl, rfl⟩
  · cases (hidle p).symm.trans h.pending_eq

/-- Settles O38: a step without a grant has nothing pending, a step with a grant has the granted port's request
pending. -/
theorem exactlyOnePendingRequestIsGranted : Obligations.ExactlyOnePendingRequestIsGranted := by
  intro s t hrst hstep
  rcases step_grant_cases hrst hstep with ⟨hidle, -, rfl⟩ | ⟨p, r, h⟩
  · simp [Ports.req_eq_false, hidle]
  · have hreq : (sample s).ports.req p = true := Ports.req_eq_true.mpr ⟨r, h.pending_eq⟩
    rw [h.gnt_eq]
    refine ⟨⟨nofun, fun hidle => ?_⟩, ?_⟩
    · cases hreq.symm.trans (hidle p)
    · rintro p' ⟨⟩
      exact hreq

/-- Settles O39: the account of every port's words in a step. -/
theorem requestsKeepTheirPortsOrderAndNoneIsLost : Obligations.RequestsKeepTheirPortsOrderAndNoneIsLost :=
  fun _ _ hrst hstep p => step_words hrst hstep p

/-- A request that is not granted stays pending under its number (R55). -/
theorem Grants.pending_of_ne {s t : State} {p p' : Port} {r r' : Request} (h : Grants s p r t) (hne : p' ≠ p)
    (h' : (sample s).ports.pending p' = some r') : t.ports.pending p' = some r' := by
  rw [h.ports_eq, (Ports.remove_spec _ _ _).1, if_neg hne, h']

/-- Settles O41: the arbiter picks a smallest number and removes that request only; what an offer makes pending has a
number not smaller than the clock. -/
theorem theGrantGoesToASmallestNumber : Obligations.TheGrantGoesToASmallestNumber := by
  refine ⟨fun s t p p' r hrst hstep hgnt hr => ?_, fun s p r hr => sample_pending_cases hr⟩
  rcases step_grant_cases hrst hstep with ⟨-, -, rfl⟩ | ⟨p'', r', h⟩
  · cases hgnt
  · cases hgnt.symm.trans h.gnt_eq
    exact ⟨⟨r', h.pending_eq, h.due_le hr⟩, fun hne => h.pending_of_ne hne hr⟩

end Sys2Proof.Machine
end

section
/-! PROOFS. The results of the operations on the registers, the flag and the sequencer, and what they leave of the bank
(40_register_bank.md, 41_protocol_sequencer.md, 42_change_notifier.md: rules R100 to R105, R120, R126, R137). -/

namespace Sys2Proof.Machine

/-! ### Reset and INIT -/

/-- Settles O5: the registers are the replicated reset value, which in range and out of range reads as 0x00. -/
theorem resetStateIsAllClear : Obligations.ResetStateIsAllClear := by
  refine ⟨fun a => ?_, rfl, rfl, rfl, rfl, rfl, rfl⟩
  by_cases ha : a.toNat < Config.N
  · simp [memRead_of_lt ha, State.reset, Config.resetValue]
  · exact memRead_of_le (Nat.not_lt.mp ha)

/-- Settles O12: INIT is the clearing with the parameter's value, and the parameter is true. -/
theorem initClearsRegistersFlagAndSequencer : Obligations.InitClearsRegistersFlagAndSequencer := exec_init

/-- Settles O13: the parameter decides the cursor alone, and what is cleared stays as it is. -/
theorem initUnderBothReadingsOfTheCursorConflict : Obligations.InitUnderBothReadingsOfTheCursorConflict := by
  refine ⟨fun c s => ⟨rfl, rfl, ?_, ?_⟩, exec_init State.reset⟩
  · cases c <;> rfl
  · cases c <;> rfl

/-! ### The setters as writes -/

/-- From AwaitingAddress the two bytes of a pair leave registers and flag of a write (R86). -/
theorem exec_pair_of_awaitingAddress {s : State} (hs : s.seq = .awaitingAddress) (a v : Byte) :
    ∃ t, exec (.pair a v) s = .next t ∧ t.x = (memWrite a v s).x ∧ t.notify = (memWrite a v s).notify ∧
      t.seq = .awaitingAddress := by
  obtain ⟨hx, hnotify, hseq⟩ := receiveByte_receiveByte_spec a v s
  rw [hs] at hx hnotify hseq
  exact ⟨_, exec_pair a v s, hx, hnotify, hseq⟩

/-- Settles O27: each setter calls `MemWrite` at its own address, and so does the data byte of a pair. -/
theorem settersAndPairsRouteToWrite : Obligations.SettersAndPairsRouteToWrite := by
  refine fun s v => ⟨rfl, ?_, ?_, rfl, fun a hs => ?_⟩
  · rw [exec_setAnalogChannel, analogAddress_zero]; rfl
  · rw [exec_setAnalogChannel, analogAddress_one]; rfl
  · obtain ⟨t, ht, hx, hnotify, hseq⟩ := exec_pair_of_awaitingAddress hs a v
    exact ⟨t, _, ht, exec_write a v s, hx, hnotify, hseq⟩

/-- WRITE at a valid address, from the statement about WRITE. -/
theorem exec_write_of_lt {a : Byte} (h : a.toNat < Config.N) (v : Byte) (s : State) :
    exec (.write a v) s =
      .next { s with x := s.x.set a.toNat v h, notify := if a = 3 then true else s.notify, resp := .none } :=
  ((writeStoresInRangeAndFlagsTheActiveAddress a v s).1 h).2

/-- Settles O16: SET_DIGITAL_SNAPSHOT is WRITE at address 0. -/
theorem setDigitalSnapshotWritesRegisterZero : Obligations.SetDigitalSnapshotWritesRegisterZero := fun v s =>
  (settersAndPairsRouteToWrite s v).1.trans (exec_write_of_lt (by decide) v s)

/-- Settles O17: channels 0 and 1 are WRITE at addresses 1 and 2, the others select no address. -/
theorem setAnalogChannelWritesItsRegister : Obligations.SetAnalogChannelWritesItsRegister := by
  intro v s
  obtain ⟨-, hzero, hone, -⟩ := settersAndPairsRouteToWrite s v
  refine ⟨hzero.trans (exec_write_of_lt (by decide) v s), hone.trans (exec_write_of_lt (by decide) v s), fun c hc => ?_⟩
  rw [exec_setAnalogChannel, analogAddress_of_le hc]
  rfl

/-- Settles O18: SET_ACTIVE is WRITE at address 3. -/
theorem setActiveWritesRegisterThreeAndSetsTheFlag : Obligations.SetActiveWritesRegisterThreeAndSetsTheFlag := by
  intro v s
  obtain ⟨-, -, -, hactive, -⟩ := settersAndPairsRouteToWrite s v
  exact hactive.trans (exec_write_of_lt (by decide) v s)

/-! ### The acknowledgment and the bytes -/

theorem activeValue_eq (s : State) : activeValue s = s.x[3] := memRead_of_lt (by decide)

/-- Settles O19: the response and its two lines by the flag. -/
theorem acknowledgmentReturnsTheValueAndClearsTheFlag : Obligations.AcknowledgmentReturnsTheValueAndClearsTheFlag := by
  intro s
  refine ⟨?_, ?_⟩
  · rw [exec_getAndAckChange, ackResponse, activeValue_eq]; rfl
  · cases hs : s.notify <;> simp [ackResponse, hs, activeValue_eq, Response.chgValid, Response.chgValue]

/-- With no data byte awaited a byte is latched (R120 case (a)). -/
theorem receiveByte_of_address {s : State} (h : s.awaitingData = false) (b : Byte) :
    receiveByte b s = latchAddress b s := by simp [receiveByte, h]

/-- With a data byte awaited a byte is written to the latched address, and the pair is closed (R120 case (b)). -/
theorem receiveByte_of_data {s : State} (h : s.awaitingData = true) (b : Byte) :
    receiveByte b s = closePair (memWrite s.pendingAddress b s) := by simp [receiveByte, h]

/-- Settles O20: one equation for the address byte, and for the data byte `MemWrite` in range and out of range. -/
theorem byteIsLatchedAsAddressOrWrittenAsData : Obligations.ByteIsLatchedAsAddressOrWrittenAsData := by
  intro b s
  refine ⟨fun haddr => ?_, fun hdata => ⟨fun h => ?_, fun h => ?_⟩⟩
  · rw [exec_onByteReceived, receiveByte_of_address haddr]; rfl
  · rw [exec_onByteReceived, receiveByte_of_data hdata, memWrite_of_lt h]; rfl
  · rw [exec_onByteReceived, receiveByte_of_data hdata, memWrite_of_le h]; rfl

/-- From AwaitingAddress the first byte of a pair is latched and the second written to it (R126). -/
theorem exec_pair_of_address {s : State} (h : s.awaitingData = false) (a v : Byte) :
    exec (.pair a v) s = .next (respond .none (closePair (memWrite a v (latchAddress a s)))) := by
  rw [exec_pair, receiveByte_of_address h, receiveByte_of_data (latchAddress_awaitingData a s),
    latchAddress_pendingAddress]

/-- From AwaitingData the first byte of a pair is written and the second latched (R126). -/
theorem exec_pair_of_data {s : State} (h : s.awaitingData = true) (a v : Byte) :
    exec (.pair a v) s = .next (respond .none (latchAddress v (closePair (memWrite s.pendingAddress a s)))) := by
  rw [exec_pair, receiveByte_of_data h, receiveByte_of_address (closePair_awaitingData _)]

/-- Settles O21: one equation for each cursor, and in each `MemWrite` in range and out of range. -/
theorem pairWritesItsValueOrShiftsByOne : Obligations.PairWritesItsValueOrShiftsByOne := by
  intro a v s
  refine ⟨fun haddr => ⟨fun h => ?_, fun h => ?_⟩, fun hdata => ⟨fun h => ?_, fun h => ?_⟩⟩
  · rw [exec_pair_of_address haddr, memWrite_of_lt h]; rfl
  · rw [exec_pair_of_address haddr, memWrite_of_le h]; rfl
  · rw [exec_pair_of_data hdata, memWrite_of_lt h]; rfl
  · rw [exec_pair_of_data hdata, memWrite_of_le h]; rfl

/-! ### Frames of the bank -/

/-- Bank writes leave what other addresses read (R109). -/
theorem memRead_writeAll_of_not_mem {ws : List (Byte × Byte)} {b : Byte} (h : b ∉ ws.map Prod.fst) (s : State) :
    memRead b (writeAll ws s) = memRead b s := by
  induction ws generalizing s with
  | nil => rfl
  | cons w ws ih =>
    obtain ⟨hw, hws⟩ := List.ne_and_not_mem_of_not_mem_cons h
    rw [writeAll_cons, ih hws, memRead_memWrite, if_neg fun hb => hw hb.1]

/-- Settles O23: an operation's registers are those after its bank writes, which leave every other address. -/
theorem onlyTheWrittenAddressesChange : Obligations.OnlyTheWrittenAddressesChange := by
  intro i s t h hinit b hb
  obtain ⟨t', h', hx, -⟩ := exec_spec i s hinit
  cases h.symm.trans h'
  rw [memRead_congr hx, memRead_writeAll_of_not_mem hb]

/-- Settles O24: the frame of every operation, INIT included. -/
theorem operationsLeaveTheSurroundings : Obligations.OperationsLeaveTheSurroundings :=
  fun _ _ _ h => exec_sameSurroundings h

/-- Operations in serial order without INIT leave every address none of them writes, acknowledgments among them. -/
theorem applyOps_keeps_memRead (ops : List Instr) {s : State} {b : Byte} (hinit : .init ∉ ops)
    (hb : b ∉ (writesOfAll s.seq ops).map Prod.fst) :
    ∃ t, applyOps ops s = .next t ∧ memRead b t = memRead b s := by
  induction ops generalizing s with
  | nil => exact ⟨s, rfl, rfl⟩
  | cons i is ih =>
    obtain ⟨hi, his⟩ := List.ne_and_not_mem_of_not_mem_cons hinit
    obtain ⟨s1, hexec⟩ := exec_next i s
    rw [writesOfAll, List.map_append, List.mem_append, not_or, ← exec_seq hexec] at hb
    obtain ⟨hb1, hbs⟩ := hb
    obtain ⟨t, happly, ht⟩ := ih his hbs
    exact ⟨t, (applyOps_cons hexec is).trans happly,
      ht.trans (onlyTheWrittenAddressesChange i s s1 hexec hi.symm b hb1)⟩

/-- Settles O26: the write stores the value, the operations after it leave the address, and READ returns it. -/
theorem writtenValueIsReadBackUntilOverwritten : Obligations.WrittenValueIsReadBackUntilOverwritten := by
  intro a v s ops ha hinit hops
  have hwritten : memRead a (respond .none (memWrite a v s)) = v :=
    (memRead_memWrite a a v s).trans (if_pos ⟨rfl, ha⟩)
  have hseq : (respond .none (memWrite a v s)).seq = s.seq := by simp
  obtain ⟨t, happly, ht⟩ := applyOps_keeps_memRead ops hinit (hseq ▸ hops)
  exact ⟨t, _, (applyOps_cons (exec_write a v s) ops).trans happly, exec_read a t,
    congrArg Response.rdata (ht.trans hwritten)⟩

end Sys2Proof.Machine
end

section
/-! PROOFS. No more deliveries than writes of the active address (42_change_notifier.md, rule R140). -/

namespace Sys2Proof.Machine

/-- The values one operation writes at the active address come before those of the operations after it. -/
theorem activeWrites_cons (q : Seq) (i : Instr) (is : List Instr) :
    activeWrites q (i :: is) = activeWrites q [i] ++ activeWrites (cursorAfter q i) is := by
  simp [activeWrites, writesOfAll]

/-- The one operation of a run that writes a value at the active address. -/
theorem mem_activeWrites_singleton {q : Seq} {i : Instr} {v : Byte} :
    v ∈ activeWrites q [i] ↔ (Config.activeAddr, v) ∈ writesOf q i := by
  simp [mem_activeWrites, writesOfAll]

/-- Only an acknowledgment of a set flag delivers a value (R82, R137). -/
theorem chgValid_responseOf (i : Instr) (s : State) :
    (responseOf i s).chgValid = true ↔ i = .getAndAckChange ∧ s.notify = true := by
  cases i with
  | getAndAckChange => cases hs : s.notify <;> simp [responseOf, ackResponse, hs, Response.chgValid]
  | _ => simp [responseOf, Response.chgValid]

/-- One operation pays for what it delivers and for a flag it leaves set with a flag set before or with its own write of
the active address (R136, R137). -/
theorem exec_delivery_le {i : Instr} {s t : State} (h : exec i s = .next t) :
    (if t.resp.chgValid then 1 else 0) + (if t.notify then 1 else 0) ≤
      (activeWrites s.seq [i]).length + if s.notify then 1 else 0 := by
  obtain ⟨t', h', hresp⟩ := exec_resp i s
  cases h.symm.trans h'
  by_cases hack : i = .getAndAckChange
  · subst hack
    cases h.symm.trans (exec_getAndAckChange s)
    cases hs : s.notify <;> simp [ackResponse, hs, Response.chgValid]
  · have hnone : ¬ t.resp.chgValid = true := by simp [hresp, chgValid_responseOf, hack]
    rw [if_neg hnone, Nat.zero_add]
    cases ht : t.notify with
    | false => simp
    | true =>
      rcases (exec_notify_eq_true h).mp ht with ⟨v, hwrite⟩ | ⟨hs, -⟩
      · have hpos := List.length_pos_of_mem (mem_activeWrites_singleton.mpr hwrite)
        simp only [if_true]
        omega
      · simp [hs]

/-- Settles O31: by induction over the operations, each paying for its delivery and for the flag it leaves. -/
theorem deliveriesAreAtMostTheActiveWrites : Obligations.DeliveriesAreAtMostTheActiveWrites := by
  intro ops
  induction ops with
  | nil => intro s; simp [responses]
  | cons i is ih =>
    intro s
    obtain ⟨t, hexec⟩ := exec_next i s
    have hhead := exec_delivery_le hexec
    have htail := ih t
    rw [exec_seq hexec] at htail
    rw [responses_cons hexec, activeWrites_cons, List.length_append, List.filter_cons]
    cases hvalid : t.resp.chgValid with
    | true =>
      simp only [hvalid, if_true] at hhead ⊢
      rw [List.length_cons]
      omega
    | false =>
      simp only [hvalid, Bool.false_eq_true, if_false] at hhead ⊢
      omega

end Sys2Proof.Machine
end

section
/-! PROOFS. The cursor after a step and after serial operations, and runs that differ in the cursor bits only
(41_protocol_sequencer.md, rules R122 to R126; 10_state.md, rule R31). -/

namespace Sys2Proof.Machine

/-! ### The cursor -/

/-- The cursor after a step is reset by `rst`, kept without a grant, and else the transition table's (R122, R170). -/
theorem step_seq {s t : State} (h : step s = .next t) :
    t.seq = if s.input.rst then .awaitingAddress else (granted s).elim s.seq (cursorAfter s.seq) := by
  cases hrst : s.input.rst with
  | true =>
    cases h.symm.trans (step_of_rst hrst)
    rfl
  | false =>
    rcases step_sameCore hrst h with ⟨hgr, -, hcore⟩ | ⟨i, u, hgr, -, hexec, hcore, -⟩
    · simp [hgr, hcore.seq_eq]
    · simp [hgr, hcore.seq_eq, exec_seq hexec]

/-- Settles O32: the statement's table is the cursor after a step, row by row. -/
theorem cursorFollowsTheTransitionTable : Obligations.CursorFollowsTheTransitionTable := by
  intro s t h
  rw [step_seq h]
  cases s.input.rst with
  | true => rfl
  | false =>
    cases granted s with
    | none => rfl
    | some i => cases i <;> rfl

/-- INIT included, serial operations leave the cursor the transition table gives (R122). -/
theorem applyOps_seq (ops : List Instr) {s t : State} (h : applyOps ops s = .next t) :
    t.seq = ops.foldl cursorAfter s.seq := by
  induction ops generalizing s with
  | nil => cases h; rfl
  | cons i is ih =>
    obtain ⟨s1, hexec⟩ := exec_next i s
    rw [applyOps_cons hexec] at h
    rw [ih h, exec_seq hexec, List.foldl_cons]

/-- But for INIT the transition table looks at the received bytes only (R75, R122). -/
theorem foldl_cursorAfter_bytesOf (ops : List Instr) (q : Seq) (hinit : .init ∉ ops) :
    ops.foldl cursorAfter q = (Instr.bytes (bytesOf ops)).foldl cursorAfter q := by
  induction ops generalizing q with
  | nil => rfl
  | cons i is ih =>
    obtain ⟨hi, his⟩ := List.ne_and_not_mem_of_not_mem_cons hinit
    rw [List.foldl_cons, ih _ his]
    cases i with
    | init => exact absurd rfl hi
    | _ => rfl

/-- Settles O33: the cursor is the table's, the table sees the bytes, and for bytes it counts. -/
theorem cursorIsDecidedByTheBytesAlone : Obligations.CursorIsDecidedByTheBytesAlone := by
  intro ops s t hs hinit happly
  rw [applyOps_seq ops happly, hs, foldl_cursorAfter_bytesOf ops _ hinit, foldl_cursorAfter_bytes]

/-! ### Runs that differ in the cursor bits only -/

/-- The two states agree in the registers and the flag. -/
def SameBank (s t : State) : Prop := t.x = s.x ∧ t.notify = s.notify

/-- An operation that performs the same writes in two states with the same bank and flag leaves them so, and answers the
same: its effect on the bank and its response depend on nothing else (R52). -/
theorem exec_sameBank {s s' : State} {i : Instr} (h : SameBank s s') (hw : writesOf s'.seq i = writesOf s.seq i) :
    ∃ t t', exec i s = .next t ∧ exec i s' = .next t' ∧ SameBank t t' ∧ t'.resp = t.resp := by
  obtain ⟨hx, hn⟩ := h
  have hresp : responseOf i s' = responseOf i s := by
    cases i <;> simp [responseOf, ackResponse, activeValue, memRead_congr hx, hn]
  obtain ⟨u, hu, hur⟩ := exec_resp i s
  obtain ⟨u', hu', hur'⟩ := exec_resp i s'
  refine ⟨u, u', hu, hu', ?_, by rw [hur, hur', hresp]⟩
  by_cases hi : i = .init
  · subst hi
    cases hu.symm.trans (exec_init s)
    cases hu'.symm.trans (exec_init s')
    exact ⟨rfl, rfl⟩
  · obtain ⟨t, ht, htx, htn, -⟩ := exec_spec i s hi
    obtain ⟨t', ht', htx', htn', -⟩ := exec_spec i s' hi
    cases hu.symm.trans ht
    cases hu'.symm.trans ht'
    obtain ⟨hxw, hnw⟩ := writeAll_congr hx hn (writesOf s.seq i)
    rw [hw] at htx' htn'
    exact ⟨htx'.trans (hxw.trans htx.symm), by rw [htn', htn, hnw]⟩

/-- States with the same bank, flag and cursor run the same operations with the same responses to states with the same
bank, flag and cursor (R31, R52). -/
theorem applyOps_sameBank_of_seq_eq (ops : List Instr) {s s' : State} (h : SameBank s s') (hseq : s'.seq = s.seq) :
    responses ops s' = responses ops s ∧
      ∃ t t', applyOps ops s = .next t ∧ applyOps ops s' = .next t' ∧ SameBank t t' ∧ t'.seq = t.seq := by
  induction ops generalizing s s' with
  | nil => exact ⟨rfl, s, s', rfl, rfl, h, hseq⟩
  | cons i is ih =>
    obtain ⟨s1, s1', hexec, hexec', hbank, hresp⟩ := exec_sameBank h (congrArg (writesOf · i) hseq)
    obtain ⟨hresps, hrun⟩ := ih hbank (by rw [exec_seq hexec, exec_seq hexec', hseq])
    rw [responses_cons hexec, responses_cons hexec', applyOps_cons hexec, applyOps_cons hexec', hresp, hresps]
    exact ⟨rfl, hrun⟩

/-- Settles O36: with no data byte awaited the two states have the same cursor. -/
theorem pendingAddressIsUnobservableInAwaitingAddress : Obligations.PendingAddressIsUnobservableInAwaitingAddress := by
  intro s p ops hdata
  have hseq : ({ s with pendingAddress := p } : State).seq = s.seq := by simp [State.seq, hdata]
  have hbank : SameBank s { s with pendingAddress := p } := ⟨rfl, rfl⟩
  obtain ⟨hresps, t, t', ht, ht', ⟨hx, hn⟩, hq⟩ := applyOps_sameBank_of_seq_eq ops hbank hseq
  exact ⟨hresps, t, t', ht, ht', hx, hn, hq⟩

/-- An operation of another port than `P_BYTE` and `P_INIT` neither depends on the cursor in its
writes nor moves it (R122, R126). -/
theorem cursor_out_of_reach {i : Instr} (hbyte : i.port ≠ .byte) (hinit : i.port ≠ .init) (q q' : Seq) :
    writesOf q' i = writesOf q i ∧ cursorAfter q i = q := by
  cases i with
  | init => exact absurd rfl hinit
  | onByteReceived b => exact absurd rfl hbyte
  | pair a v => exact absurd rfl hbyte
  | _ => exact ⟨rfl, rfl⟩

/-- Operations of the other ports act alike on states with the same bank and flag, and leave each cursor as it was. -/
theorem applyOps_sameBank_of_port (ops : List Instr) {s s' : State}
    (hports : ∀ i ∈ ops, i.port ≠ .byte ∧ i.port ≠ .init) (h : SameBank s s') :
    ∃ t t', applyOps ops s = .next t ∧ applyOps ops s' = .next t' ∧ SameBank t t' ∧ t'.seq = s'.seq := by
  induction ops generalizing s s' with
  | nil => exact ⟨s, s', rfl, rfl, h, rfl⟩
  | cons i is ih =>
    obtain ⟨⟨hbyte, hinit⟩, hports⟩ := List.forall_mem_cons.mp hports
    obtain ⟨hwrites, hcursor⟩ := cursor_out_of_reach hbyte hinit s.seq s'.seq
    obtain ⟨s1, s1', hexec, hexec', hbank, -⟩ := exec_sameBank h hwrites
    obtain ⟨t, t', ht, ht', hbank', hseq⟩ := ih hports hbank
    refine ⟨t, t', (applyOps_cons hexec is).trans ht, (applyOps_cons hexec' is).trans ht', hbank', hseq.trans ?_⟩
    exact (exec_seq hexec').trans (cursor_out_of_reach hbyte hinit s'.seq s.seq).2

/-- Serial operations in two parts. -/
theorem applyOps_append {ops : List Instr} {s t : State} (h : applyOps ops s = .next t) (ops' : List Instr) :
    applyOps (ops ++ ops') s = applyOps ops' t := by
  induction ops generalizing s with
  | nil => cases h; rfl
  | cons i is ih =>
    obtain ⟨s1, hexec⟩ := exec_next i s
    rw [applyOps_cons hexec] at h
    rw [List.cons_append, applyOps_cons hexec, ih h]

/-- Settles O35: latching the address changes the cursor only, the operations in between keep it, and the data byte is
the write to the latched address. -/
theorem pairSurvivesOperationsBetweenItsBytes : Obligations.PairSurvivesOperationsBetweenItsBytes := by
  intro s a v ops hs hports
  have haddr : receiveByte a s = latchAddress a s := by
    rcases receiveByte_cases a s with ⟨-, h⟩ | ⟨p, h, -⟩
    · exact h
    · cases hs.symm.trans h
  have hbank : SameBank s (respond .none (receiveByte a s)) := haddr ▸ ⟨rfl, rfl⟩
  obtain ⟨t, t', ht, ht', ⟨hx, hn⟩, hseq⟩ := applyOps_sameBank_of_port ops hports hbank
  have hseq' : t'.seq = .awaitingData a := by rw [hseq, haddr]; rfl
  obtain ⟨hux, hun, huseq⟩ := receiveByte_spec v t'
  obtain ⟨hxw, hnw⟩ := memWrite_congr hx hn a v
  rw [hseq'] at hux hun huseq
  refine ⟨t, respond .none (receiveByte v t'), ht, ?_, hux.trans hxw, hun.trans hnw, huseq⟩
  rw [applyOps_cons (exec_onByteReceived a s), applyOps_append ht', applyOps_cons (exec_onByteReceived v t')]
  rfl

end Sys2Proof.Machine
end

section
/-! PROOFS. Which pending request a step grants: the word placed for it, and any port's under some numbers
(20_memory.md section 8, rule R55; log entries 2 and 12). -/

namespace Sys2Proof.Machine

/-! ### Steps that make nothing pending -/

/-- Nothing is presented in the coming step, and no word waits where nothing is pending. -/
def Quiet (s : State) : Prop := s.arrivals = [] ∧ ∀ p, s.ports.pending p = none → s.ports.waiting p = []

theorem offers_eq_self (l : List Port) {s : State} (h : ∀ p, s.ports.pending p = none → s.ports.waiting p = []) :
    l.foldl (fun t p => offer p t) s = s := by
  induction l with
  | nil => rfl
  | cons p l ih =>
    have hself : offer p s = s := by
      rcases offer_cases p s with ⟨hself, -⟩ | ⟨k, ks, hpending, hwaiting, -⟩
      · exact hself
      · cases (h p hpending).symm.trans hwaiting
    rw [List.foldl_cons, hself, ih]

/-- In such a step the ports stay as they are up to the grant. -/
theorem Quiet.sample_eq {s : State} (h : Quiet s) : sample s = advance s := by
  obtain ⟨harrivals, hports⟩ := h
  have hpresent : presentAll s.arrivals s = s := by rw [harrivals]; rfl
  rw [sample, hpresent, offerAll, offers_eq_self allPorts hports]

/-! ### The arbiter's choice -/

/-- While a request is pending, one with a number not above its own is granted (R55). -/
theorem arbitrate_of_pending {q : Ports} {p : Port} {r : Request} (hr : q.pending p = some r) :
    ∃ p' r', arbitrate q = some (p', r') ∧ q.pending p' = some r' ∧ r'.due ≤ r.due := by
  cases harb : arbitrate q with
  | none => cases (arbitrate_none.mp harb p).symm.trans hr
  | some c =>
    obtain ⟨hc, hmin⟩ := arbitrate_some harb
    exact ⟨c.1, c.2, rfl, hc, hmin p r hr⟩

/-- The request with the one smallest number is granted (R55). -/
theorem arbitrate_of_lt {q : Ports} {p : Port} {r : Request} (hr : q.pending p = some r)
    (hlt : ∀ p' r', p' ≠ p → q.pending p' = some r' → r.due < r'.due) : arbitrate q = some (p, r) := by
  obtain ⟨p', r', harb, hr', hle⟩ := arbitrate_of_pending hr
  by_cases hp : p' = p
  · subst hp
    cases hr'.symm.trans hr
    exact harb
  · exact absurd hle (Nat.not_le.mpr (hlt p' r' hp hr'))

/-- The first candidate is chosen when no other has a smaller number. -/
theorem earliest_of_le {c : Port × Request} {cs : List (Port × Request)} (h : ∀ d ∈ cs, c.2.due ≤ d.2.due) :
    earliest c cs = c := by
  induction cs with
  | nil => rfl
  | cons d ds ih =>
    obtain ⟨hd, hds⟩ := List.forall_mem_cons.mp h
    rw [earliest, if_neg (Nat.not_lt.mpr hd), ih hds]

/-- `P_BYTE` is granted even where other ports share its number: it is the first port (log entry 2). -/
theorem arbitrate_byte_of_le {q : Ports} {r : Request} (hr : q.pending .byte = some r)
    (hle : ∀ p' r', q.pending p' = some r' → r.due ≤ r'.due) : arbitrate q = some (.byte, r) := by
  obtain ⟨cs, hcs⟩ : ∃ cs, q.candidates = (.byte, r) :: cs := ⟨_, by simp [Ports.candidates, allPorts, hr]; rfl⟩
  have hmin : ∀ d ∈ cs, r.due ≤ d.2.due := fun d hd =>
    hle d.1 d.2 ((q.mem_candidates d.1 d.2).mp (hcs ▸ List.mem_cons_of_mem _ hd))
  simp [arbitrate, hcs, earliest_of_le (c := (Port.byte, r)) hmin]

/-! ### The placed word -/

theorem quiet_placeRequest (k : Packet) (s : State) : Quiet (placeRequest k s) := by
  refine ⟨rfl, fun p _ => ?_⟩
  by_cases hp : p = (decode k).port
  · subst hp; simp [placeRequest, Ports.waiting]
  · simp [placeRequest, Ports.waiting, hp, PortState.empty]

/-- The placed word is the one request there is. -/
theorem arbitrate_placeRequest (k : Packet) (s : State) :
    arbitrate (sample (placeRequest k s)).ports = some ((decode k).port, ⟨k, 0⟩) := by
  rw [(quiet_placeRequest k s).sample_eq, advance_ports]
  refine arbitrate_of_lt (by simp [placeRequest, Ports.pending]) fun p r hp hr => ?_
  simp [placeRequest, Ports.pending, hp, PortState.empty] at hr

/-- Taking the placed word off its port leaves nothing on any port. -/
theorem remove_setLine_empty (p : Port) (r : Request) :
    (Ports.empty.setLine p ⟨some r, []⟩).remove p = Ports.empty := by
  cases p <;> rfl

/-- Settles O9: the placed word is granted, and taking it off its port leaves the ports empty. -/
theorem placedWordIsRunByTheNextStep : Obligations.PlacedWordIsRunByTheNextStep := by
  intro s nbits w i h
  obtain ⟨k, hk, rfl⟩ := decodeTableWord_eq_some.mp h
  have hplaced : s.withFetchWord nbits w = placeRequest k s := by simp [State.withFetchWord, hk]
  have hgrant : grant (decode k).port (sample (placeRequest k s)) =
      { s with ports := Ports.empty, gnt := some (decode k).port, tick := s.tick + 1 } := by
    rw [(quiet_placeRequest k s).sample_eq, grant, advance_ports]
    simp only [placeRequest, remove_setLine_empty]
    rfl
  rw [hplaced, stepAppliesTheGrantedDecodedOperation _ _ _ rfl (arbitrate_placeRequest k s), hgrant]

/-! ### Numbers that let any port be the one granted -/

/-- A port with these words on it, the first of them pending under a number. -/
def PortState.ofWords (n : Nat) : List Packet → PortState
  | [] => .empty
  | k :: ks => ⟨some ⟨k, n⟩, ks⟩

/-- The same words on every port, pending under numbers given by the port. -/
def Ports.renumber (q : Ports) (f : Port → Nat) : Ports :=
  ⟨.ofWords (f .byte) (q.words .byte), .ofWords (f .wr) (q.words .wr), .ofWords (f .rd) (q.words .rd),
    .ofWords (f .ack) (q.words .ack), .ofWords (f .init) (q.words .init)⟩

theorem Ports.line_renumber (q : Ports) (f : Port → Nat) (p : Port) :
    (q.renumber f).line p = PortState.ofWords (f p) (q.words p) := by cases p <;> rfl

/-- Where there is a word, the first is pending under the port's number; the words stay. -/
theorem Ports.renumber_spec (q : Ports) (f : Port → Nat) (p : Port) :
    (q.renumber f).words p = q.words p ∧ (q.renumber f).pending p = (q.words p).head?.map fun k => ⟨k, f p⟩ := by
  simp only [Ports.words, Ports.pending, Ports.waiting, Ports.line_renumber]
  cases (q.line p).pending <;> cases (q.line p).waiting <;> simp [PortState.ofWords, PortState.empty]

theorem quiet_renumber {s : State} (h : s.arrivals = []) (f : Port → Nat) :
    Quiet { s with ports := s.ports.renumber f } := by
  refine ⟨h, fun p hp => ?_⟩
  obtain ⟨hwords, hpending⟩ := s.ports.renumber_spec f p
  have hnil : s.ports.words p = [] := by simpa [hpending] using hp
  have hline := Ports.words_eq_nil.mp (hwords.trans hnil)
  simp [Ports.waiting, hline, PortState.empty]

/-- Numbers with which one port comes before all others. -/
def favouring (p p' : Port) : Nat := if p' = p then 0 else 1

theorem arbitrate_favouring {s : State} {p : Port} {k : Packet} {ks : List Packet} (h : s.arrivals = [])
    (hk : s.ports.words p = k :: ks) :
    arbitrate (sample { s with ports := s.ports.renumber (favouring p) }).ports = some (p, ⟨k, 0⟩) := by
  rw [(quiet_renumber h _).sample_eq, advance_ports]
  refine arbitrate_of_lt (by simp [Ports.renumber_spec, hk, favouring]) fun p' r' hp hr => ?_
  rw [(Ports.renumber_spec _ _ _).2] at hr
  obtain ⟨k', -, rfl⟩ := Option.map_eq_some_iff.mp hr
  simp [favouring, hp]

/-- Settles O40: number 0 for the port in question and 1 for the others. -/
theorem everyPendingRequestCanBeTheOneGranted : Obligations.EveryPendingRequestCanBeTheOneGranted := by
  intro s p hrst harrivals hwords
  obtain ⟨k, ks, hk⟩ := List.exists_cons_of_ne_nil hwords
  obtain ⟨t, hstep⟩ := step_next { s with ports := s.ports.renumber (favouring p) }
  have hrst' : ({ s with ports := s.ports.renumber (favouring p) } : State).input.rst = false := hrst
  have hgrants := grants_of_arbitrate hrst' (arbitrate_favouring harrivals hk) hstep
  exact ⟨_, fun p' => (s.ports.renumber_spec (favouring p) p').1, t, hstep, hgrants.gnt_eq⟩

end Sys2Proof.Machine
end

section
/-! PROOFS. Words on two ports and nothing else presented: the orders in which they are granted, and their outcomes as
serial orders (20_memory.md section 8, rules R53, R55, R57; 60_exceptions.md, rule R155). -/

namespace Sys2Proof.Machine

/-! ### Runs as serial orders -/

theorem run_next (k : Nat) (s : State) : ∃ t, Sys2Proof.core.run k s = .next t := by
  induction k generalizing s with
  | zero => exact ⟨s, rfl⟩
  | succ k ih =>
    obtain ⟨s1, hstep⟩ := step_next s
    rw [run_succ hstep]
    exact ih s1

/-- With nothing presented a run is the serial order of what it grants (R52). -/
theorem runsAs_of_grantedOps {k : Nat} {s : State} {ops : List Instr} (hin : s.inputs = [])
    (h : grantedOps k s = ops) : RunsAs k s ops := by
  subst h
  obtain ⟨t, hrun⟩ := run_next k s
  have hrst : ∀ e ∈ s.inputs, e.rst = false := by simp [hin]
  obtain ⟨⟨u, happly, hcore⟩, hresps⟩ := run_serial k (SameCore.refl s) hrst hrun
  exact ⟨rfl, hresps, t, u, hrun, happly, hcore⟩

/-! ### Two ports with words on them -/

/-- Nothing is presented, and the only words are `ks` on port `p` and `ls` on port `q`. -/
structure TwoPorts (s : State) (p : Port) (ks : List Packet) (q : Port) (ls : List Packet) : Prop where
  inputs_eq : s.inputs = []
  ne : p ≠ q
  words_left : s.ports.words p = ks
  words_right : s.ports.words q = ls
  words_other : ∀ p', p' ≠ p → p' ≠ q → s.ports.words p' = []

section TwoPorts
variable {s t : State} {p q : Port} {k l : Packet} {ks ls : List Packet}

theorem TwoPorts.symm (h : TwoPorts s p ks q ls) : TwoPorts s q ls p ks :=
  ⟨h.inputs_eq, h.ne.symm, h.words_right, h.words_left, fun p' hq hp => h.words_other p' hp hq⟩

theorem TwoPorts.rst_eq (h : TwoPorts s p ks q ls) : s.input.rst = false := by
  rw [State.input, h.inputs_eq]; rfl

theorem TwoPorts.arrivals_eq (h : TwoPorts s p ks q ls) : s.arrivals = [] := by
  rw [State.arrivals, State.input, h.inputs_eq]; rfl

theorem TwoPorts.arrivalsOn_eq (h : TwoPorts s p ks q ls) (p' : Port) : s.arrivalsOn p' = [] := by
  rw [State.arrivalsOn, h.arrivals_eq]; rfl

theorem TwoPorts.sample_words_eq (h : TwoPorts s p ks q ls) (p' : Port) :
    (sample s).ports.words p' = s.ports.words p' := by
  rw [sample_words, h.arrivalsOn_eq, List.append_nil]

/-- What is granted is on one of the two ports. -/
theorem TwoPorts.pending_cases (h : TwoPorts s p ks q ls) {p' : Port} {r : Request}
    (hr : (sample s).ports.pending p' = some r) : p' = p ∨ p' = q := by
  by_contra hne
  obtain ⟨hp, hq⟩ := not_or.mp hne
  have hnil := sample_pending_eq_none.mpr ((h.sample_words_eq p').trans (h.words_other p' hp hq))
  cases hnil.symm.trans hr

/-- While there is a word a step grants one of the two ports. -/
theorem TwoPorts.gnt_cases (h : TwoPorts s p (k :: ks) q ls) (hstep : step s = .next t) :
    t.gnt = some p ∨ t.gnt = some q := by
  rcases step_grant_cases h.rst_eq hstep with ⟨hidle, -⟩ | ⟨p', r, hg⟩
  · cases h.words_left.symm.trans (words_eq_nil_of_idle (hidle p)).1
  · rw [hg.gnt_eq]
    exact (h.pending_cases hg.pending_eq).imp (congrArg some) (congrArg some)

/-- A grant of the first port runs its first word, and leaves the words behind it and those of the other port. -/
theorem TwoPorts.of_gnt (h : TwoPorts s p (k :: ks) q ls) (hstep : step s = .next t) (hgnt : t.gnt = some p) :
    granted s = some (decode k) ∧ TwoPorts t p ks q ls := by
  have hother : ∀ p', p' ≠ p → t.ports.words p' = s.ports.words p' := fun p' hne => by
    rcases step_words h.rst_eq hstep p' with ⟨-, hgnt', -⟩ | ⟨-, hwords⟩
    · cases hgnt.symm.trans hgnt'
      exact absurd rfl hne
    · rw [hwords, h.arrivalsOn_eq, List.append_nil]
  rcases step_words h.rst_eq hstep p with ⟨k', -, hgr, hself⟩ | ⟨hnot, -⟩
  · rw [h.arrivalsOn_eq, List.append_nil, h.words_left] at hself
    obtain ⟨rfl, hks⟩ := List.cons_eq_cons.mp hself
    refine ⟨hgr, ?_, h.ne, hks, (hother q h.ne.symm).trans h.words_right, fun p' hp hq => ?_⟩
    · rw [step_inputs hstep, h.inputs_eq, List.tail_nil]
    · exact (hother p' hp).trans (h.words_other p' hp hq)
  · exact absurd hgnt hnot

theorem TwoPorts.grantedOps_of_gnt (h : TwoPorts s p (k :: ks) q ls) (hstep : step s = .next t)
    (hgnt : t.gnt = some p) (n : Nat) : grantedOps (n + 1) s = decode k :: grantedOps n t := by
  rw [grantedOps_succ hstep, (h.of_gnt hstep hgnt).1]
  rfl

/-- A port without a word is not granted. -/
theorem TwoPorts.gnt_of_nil (h : TwoPorts s p (k :: ks) q []) (hstep : step s = .next t) : t.gnt = some p := by
  rcases h.gnt_cases hstep with hgnt | hgnt
  · exact hgnt
  · rcases step_words h.rst_eq hstep q with ⟨l, -, -, hwords⟩ | ⟨hnot, -⟩
    · rw [h.words_right, h.arrivalsOn_eq] at hwords
      cases hwords
    · exact absurd hgnt hnot

/-- Words on one port only are granted in order. -/
theorem TwoPorts.grantedOps_of_nil (h : TwoPorts s p ks q []) : grantedOps ks.length s = ks.map decode := by
  induction ks generalizing s with
  | nil => rfl
  | cons k ks ih =>
    obtain ⟨t, hstep⟩ := step_next s
    have hgnt := h.gnt_of_nil hstep
    rw [List.length_cons, h.grantedOps_of_gnt hstep hgnt, ih (h.of_gnt hstep hgnt).2, List.map_cons]

/-- After the first port's one word the other port's words follow in order. -/
theorem TwoPorts.grantedOps_of_gnt_last (h : TwoPorts s p [k] q ls) (hstep : step s = .next t)
    (hgnt : t.gnt = some p) : grantedOps (ls.length + 1) s = decode k :: ls.map decode := by
  rw [h.grantedOps_of_gnt hstep hgnt, (h.of_gnt hstep hgnt).2.symm.grantedOps_of_nil]

/-- One word on each of two ports: granted in one of the two orders. -/
theorem TwoPorts.grantedOps_two (h : TwoPorts s p [k] q [l]) :
    grantedOps 2 s = [decode k, decode l] ∨ grantedOps 2 s = [decode l, decode k] := by
  obtain ⟨t, hstep⟩ := step_next s
  rcases h.gnt_cases hstep with hgnt | hgnt
  · exact .inl (h.grantedOps_of_gnt_last hstep hgnt)
  · exact .inr (h.symm.grantedOps_of_gnt_last hstep hgnt)

/-- The first port is granted when its request has the smaller number. -/
theorem TwoPorts.gnt_of_lt (h : TwoPorts s p ks q ls) {r r' : Request} (hr : (sample s).ports.pending p = some r)
    (hr' : (sample s).ports.pending q = some r') (hlt : r.due < r'.due) (hstep : step s = .next t) :
    t.gnt = some p := by
  refine (grants_of_arbitrate h.rst_eq (arbitrate_of_lt hr fun p' r'' hp hr'' => ?_) hstep).gnt_eq
  rcases h.pending_cases hr'' with rfl | rfl
  · exact absurd rfl hp
  · cases hr'.symm.trans hr''
    exact hlt

/-- `P_BYTE` is granted when the other port's request does not have a smaller number. -/
theorem TwoPorts.gnt_byte_of_le (h : TwoPorts s .byte ks q ls) {r r' : Request}
    (hr : (sample s).ports.pending .byte = some r) (hr' : (sample s).ports.pending q = some r')
    (hle : r.due ≤ r'.due) (hstep : step s = .next t) : t.gnt = some .byte := by
  refine (grants_of_arbitrate h.rst_eq (arbitrate_byte_of_le hr fun p' r'' hr'' => ?_) hstep).gnt_eq
  rcases h.pending_cases hr'' with rfl | rfl
  · cases hr.symm.trans hr''
    exact Nat.le_refl _
  · cases hr'.symm.trans hr''
    exact hle

/-- The other port's request stays pending through a grant of the first. -/
theorem TwoPorts.pending_of_gnt (h : TwoPorts s p ks q ls) {r : Request} (hr : (sample s).ports.pending q = some r)
    (hstep : step s = .next t) (hgnt : t.gnt = some p) : t.ports.pending q = some r :=
  (theGrantGoesToASmallestNumber.1 s t q p r h.rst_eq hstep hgnt hr).2 h.ne.symm

end TwoPorts

/-! ### The state with two words pending -/

section withTwoPending
variable {s : State} {p q : Port} {k l : Packet} {m n : Nat} {ks : List Packet}

theorem line_withTwoPending (p' : Port) :
    (s.withTwoPending p k m ks q l n).ports.line p' =
      if p' = q then ⟨some ⟨l, n⟩, []⟩ else if p' = p then ⟨some ⟨k, m⟩, ks⟩ else .empty := by
  simp [State.withTwoPending, Ports.line_setLine]

/-- The first word is pending under its number at the grant. -/
theorem pending_left_withTwoPending (hne : p ≠ q) :
    (sample (s.withTwoPending p k m ks q l n)).ports.pending p = some ⟨k, m⟩ :=
  sample_pending_of_pending (by simp [Ports.pending, line_withTwoPending, hne])

/-- The second word is pending under its number at the grant. -/
theorem pending_right_withTwoPending :
    (sample (s.withTwoPending p k m ks q l n)).ports.pending q = some ⟨l, n⟩ :=
  sample_pending_of_pending (by simp [Ports.pending, line_withTwoPending])

theorem twoPorts_withTwoPending (hne : p ≠ q) (hin : s.inputs = []) :
    TwoPorts (s.withTwoPending p k m ks q l n) p (k :: ks) q [l] := by
  refine ⟨hin, hne, ?_, ?_, fun p' hp hq => ?_⟩
  · simp [Ports.words, Ports.pending, Ports.waiting, line_withTwoPending, hne]
  · simp [Ports.words, Ports.pending, Ports.waiting, line_withTwoPending]
  · simp [Ports.words, Ports.pending, Ports.waiting, line_withTwoPending, hp, hq, PortState.empty]

/-- Everything on a port is pending there or behind what is. -/
theorem quiet_withTwoPending (hin : s.inputs = []) : Quiet (s.withTwoPending p k m ks q l n) := by
  refine ⟨by rw [State.arrivals, State.input, State.withTwoPending, hin]; rfl, fun p' => ?_⟩
  simp only [Ports.pending, Ports.waiting, line_withTwoPending]
  split_ifs <;> simp [PortState.empty]

/-- The smaller number is granted first: here the first port's. -/
theorem gnt_left_withTwoPending (hne : p ≠ q) (hin : s.inputs = []) (hlt : m < n) {t : State}
    (hstep : step (s.withTwoPending p k m ks q l n) = .next t) : t.gnt = some p :=
  (twoPorts_withTwoPending hne hin).gnt_of_lt (pending_left_withTwoPending hne) pending_right_withTwoPending hlt hstep

/-- The smaller number is granted first: here the second port's. -/
theorem gnt_right_withTwoPending (hne : p ≠ q) (hin : s.inputs = []) (hlt : n < m) {t : State}
    (hstep : step (s.withTwoPending p k m ks q l n) = .next t) : t.gnt = some q :=
  (twoPorts_withTwoPending hne hin).symm.gnt_of_lt pending_right_withTwoPending (pending_left_withTwoPending hne) hlt
    hstep

end withTwoPending

/-- Settles O43: a run is the serial order of what it grants, the two words are granted in one of the two orders, and
the smaller number decides which. -/
theorem simultaneousRequestsHaveExactlyTheSerialOutcomes :
    Obligations.SimultaneousRequestsHaveExactlyTheSerialOutcomes := by
  intro s p q k l hne hin
  have htwo (m n : Nat) : TwoPorts (s.withTwoPending p k m [] q l n) p [k] q [l] := twoPorts_withTwoPending hne hin
  refine ⟨fun m n => ?_, ⟨0, 1, ?_⟩, ⟨1, 0, ?_⟩⟩
  · exact (htwo m n).grantedOps_two.imp (runsAs_of_grantedOps hin) (runsAs_of_grantedOps hin)
  · obtain ⟨t, hstep⟩ := step_next (s.withTwoPending p k 0 [] q l 1)
    have hgnt := gnt_left_withTwoPending hne hin Nat.zero_lt_one hstep
    exact runsAs_of_grantedOps hin ((htwo 0 1).grantedOps_of_gnt_last hstep hgnt)
  · obtain ⟨t, hstep⟩ := step_next (s.withTwoPending p k 1 [] q l 0)
    have hgnt := gnt_right_withTwoPending hne hin Nat.zero_lt_one hstep
    exact runsAs_of_grantedOps hin ((htwo 1 0).symm.grantedOps_of_gnt_last hstep hgnt)

end Sys2Proof.Machine
end

section
/-! PROOFS. A write of the active register and an acknowledgment in the same step (60_exceptions.md, rule R155). -/

namespace Sys2Proof.Machine

/-- A step is its granted operation applied to the CORE's state before the step (R52). -/
theorem step_exec {s t : State} {i : Instr} (hrst : s.input.rst = false) (hgr : granted s = some i)
    (hstep : step s = .next t) : ∃ u, exec i s = .next u ∧ SameCore u t ∧ t.resp = u.resp := by
  rcases step_sameCore hrst hstep with ⟨hnone, -, -⟩ | ⟨i', u, hgr', -, hexec, hcore, hresp⟩
  · cases hgr.symm.trans hnone
  · cases hgr.symm.trans hgr'
    exact ⟨u, hexec, hcore, hresp⟩

/-- A step whose operation writes the active address and nothing else stores the value there and sets the flag
(R136). -/
theorem step_active_write {s t : State} {i : Instr} {w : Byte} (hrst : s.input.rst = false)
    (hgr : granted s = some i) (hw : writesOf s.seq i = [(Config.activeAddr, w)]) (hstep : step s = .next t) :
    memRead Config.activeAddr t = w ∧ t.notify = true := by
  have hinit : i ≠ .init := by rintro rfl; cases hw
  refine ⟨?_, (step_notify_eq_true hstep).mpr (.inl ⟨i, w, hgr, by simp [hw]⟩)⟩
  obtain ⟨u, hexec, hcore, -⟩ := step_exec hrst hgr hstep
  obtain ⟨u', hexec', hx, -⟩ := exec_spec i s hinit
  cases hexec.symm.trans hexec'
  have hvalid : Config.activeAddr.toNat < Config.N := by decide
  rw [hcore.memRead_eq, memRead_congr hx, hw, writeAll_cons, writeAll_nil, memRead_memWrite, if_pos ⟨rfl, hvalid⟩]

/-- A step that grants an acknowledgment answers the active register's value if the flag was set, clears the flag and
leaves registers and cursor (R137). -/
theorem step_ack {s t : State} (hrst : s.input.rst = false) (hgr : granted s = some .getAndAckChange)
    (hstep : step s = .next t) :
    t.resp = .chg (if s.notify then some (memRead Config.activeAddr s) else none) ∧
      memRead Config.activeAddr t = memRead Config.activeAddr s ∧ t.notify = false ∧ t.seq = s.seq := by
  obtain ⟨u, hexec, hcore, hresp⟩ := step_exec hrst hgr hstep
  cases hexec.symm.trans (exec_getAndAckChange s)
  obtain ⟨-, hnotify, -⟩ := id hcore
  exact ⟨hresp, hcore.memRead_eq _, hnotify, hcore.seq_eq⟩

section race
variable {z : State} {p : Port} {w : Byte} {k l : Packet}

/-- With the write granted first the acknowledgment returns what it wrote. -/
theorem writeThenAck_of_gnt {s1 : State} (h : TwoPorts z p [k] .ack [l]) (hl : decode l = .getAndAckChange)
    (hw : writesOf z.seq (decode k) = [(Config.activeAddr, w)]) (hstep : step z = .next s1)
    (hgnt : s1.gnt = some p) : WriteThenAck z p w := by
  obtain ⟨hgr, h1⟩ := h.of_gnt hstep hgnt
  obtain ⟨hvalue, hset⟩ := step_active_write h.rst_eq hgr hw hstep
  obtain ⟨t, hstep1⟩ := step_next s1
  have hgnt1 := h1.symm.gnt_of_nil hstep1
  obtain ⟨hgr1, -⟩ := h1.symm.of_gnt hstep1 hgnt1
  obtain ⟨hresp, hvalue1, hclear, -⟩ := step_ack h1.rst_eq (hl ▸ hgr1) hstep1
  exact ⟨s1, t, hstep, hstep1, hgnt, hgnt1, hvalue1.trans hvalue, by rw [hresp, hset, hvalue]; rfl, hclear⟩

/-- With the acknowledgment granted first it returns the old value or nothing, and the write leaves the flag set. -/
theorem ackThenWrite_of_gnt {s1 : State} (h : TwoPorts z p [k] .ack [l]) (hl : decode l = .getAndAckChange)
    (hw : writesOf z.seq (decode k) = [(Config.activeAddr, w)]) (hstep : step z = .next s1)
    (hgnt : s1.gnt = some .ack) : AckThenWrite z p w := by
  obtain ⟨hgr, h1⟩ := h.symm.of_gnt hstep hgnt
  obtain ⟨hresp, -, -, hseq⟩ := step_ack h.rst_eq (hl ▸ hgr) hstep
  obtain ⟨t, hstep1⟩ := step_next s1
  have hgnt1 := h1.symm.gnt_of_nil hstep1
  obtain ⟨hgr1, -⟩ := h1.symm.of_gnt hstep1 hgnt1
  obtain ⟨hvalue, hset⟩ := step_active_write h1.rst_eq hgr1 (hseq ▸ hw) hstep1
  exact ⟨s1, t, hstep, hstep1, hgnt, hgnt1, hvalue, hset, hresp⟩

end race

/-- Settles O44: on each path the word writes the active address and nothing else, both orders are told by the first
grant, and the smaller number decides which it is. -/
theorem acknowledgmentRacesAWriteWithFourOutcomes : Obligations.AcknowledgmentRacesAWriteWithFourOutcomes := by
  intro s p w k l hpath hl hin
  have hne : p ≠ .ack := by rcases hpath with ⟨rfl, -⟩ | ⟨rfl, -⟩ <;> decide
  have hw : writesOf s.seq (decode k) = [(Config.activeAddr, w)] := by
    rcases hpath with ⟨-, hk | hk⟩ | ⟨-, hseq, hk⟩
    · rw [hk]; rfl
    · rw [hk]; rfl
    · rw [hk, hseq]; rfl
  have htwo (m n : Nat) : TwoPorts (s.withTwoPending p k m [] .ack l n) p [k] .ack [l] :=
    twoPorts_withTwoPending hne hin
  refine ⟨fun m n => ?_, ⟨0, 1, ?_⟩, ⟨1, 0, ?_⟩⟩
  · obtain ⟨s1, hstep⟩ := step_next (s.withTwoPending p k m [] .ack l n)
    exact ((htwo m n).gnt_cases hstep).imp (writeThenAck_of_gnt (htwo m n) hl hw hstep)
      (ackThenWrite_of_gnt (htwo m n) hl hw hstep)
  · obtain ⟨s1, hstep⟩ := step_next (s.withTwoPending p k 0 [] .ack l 1)
    exact writeThenAck_of_gnt (htwo 0 1) hl hw hstep (gnt_left_withTwoPending hne hin Nat.zero_lt_one hstep)
  · obtain ⟨s1, hstep⟩ := step_next (s.withTwoPending p k 1 [] .ack l 0)
    exact ackThenWrite_of_gnt (htwo 1 0) hl hw hstep (gnt_right_withTwoPending hne hin Nat.zero_lt_one hstep)

end Sys2Proof.Machine
end

section
/-! PROOFS. The two bytes of a pair on `P_BYTE` beside one word on another port (41_protocol_sequencer.md section 4,
rules R53, R126). -/

namespace Sys2Proof.Machine

/-- Two words on one port and one on another: granted in one of the three orders that keep the two in order (R53). -/
theorem TwoPorts.grantedOps_three {s : State} {p q : Port} {k k' l : Packet} (h : TwoPorts s p [k, k'] q [l]) :
    grantedOps 3 s = [decode k, decode k', decode l] ∨ grantedOps 3 s = [decode k, decode l, decode k'] ∨
      grantedOps 3 s = [decode l, decode k, decode k'] := by
  obtain ⟨t, hstep⟩ := step_next s
  rcases h.gnt_cases hstep with hgnt | hgnt
  · rw [h.grantedOps_of_gnt hstep hgnt 2]
    rcases (h.of_gnt hstep hgnt).2.grantedOps_two with htwo | htwo
    · exact .inl (congrArg _ htwo)
    · exact .inr (.inl (congrArg _ htwo))
  · exact .inr (.inr (h.symm.grantedOps_of_gnt_last hstep hgnt))

/-- `P_BYTE` is the first port to get a number: a word that waits there with nothing pending is offered before any other
serial number is drawn (log entry 2). -/
theorem sample_pending_byte {s : State} {k : Packet} {ks : List Packet} (harrivals : s.arrivals = [])
    (hpending : s.ports.pending .byte = none) (hwords : s.ports.words .byte = k :: ks) :
    (sample s).ports.pending .byte = some ⟨k, s.tick + Config.arbOrder s.serial⟩ := by
  have hpresent : presentAll s.arrivals s = s := by rw [harrivals]; rfl
  have hwaiting : s.ports.waiting .byte = k :: ks := by simpa [Ports.words, hpending] using hwords
  have hoffer : (offer .byte s).ports.pending .byte = some ⟨k, s.tick + Config.arbOrder s.serial⟩ := by
    simp only [offer, hpending, hwaiting]
    simp [Ports.pending]
  rw [sample, hpresent, advance_ports]
  exact (offers_spec [.wr, .rd, .ack, .init] (offer .byte s) .byte).2.1 _ hoffer

section pairBeside
variable {s t : State} {q : Port} {k k' l : Packet} {m n : Nat}

/-- After the grant of the first byte the second is pending under the number drawn for it, and the other word under its
own. -/
theorem pending_after_byte (hne : q ≠ .byte) (hin : s.inputs = [])
    (hstep : step (s.withTwoPending .byte k m [k'] q l n) = .next t) (hgnt : t.gnt = some .byte) :
    (sample t).ports.pending .byte = some ⟨k', s.tick + 1 + Config.arbOrder s.serial⟩ ∧
      (sample t).ports.pending q = some ⟨l, n⟩ := by
  have h : TwoPorts (s.withTwoPending .byte k m [k'] q l n) .byte [k, k'] q [l] :=
    twoPorts_withTwoPending hne.symm hin
  obtain ⟨hserial, htick, hnone⟩ : t.serial = s.serial ∧ t.tick = s.tick + 1 ∧ t.ports.pending .byte = none := by
    rcases step_grant_cases h.rst_eq hstep with ⟨-, -, rfl⟩ | ⟨p, r, hg⟩
    · cases hgnt
    · cases hgnt.symm.trans hg.gnt_eq
      refine ⟨?_, hg.tick_eq, ?_⟩
      · rw [hg.serial_eq, (quiet_withTwoPending hin).sample_eq]; rfl
      · rw [hg.ports_eq, (Ports.remove_spec _ _ _).1, if_pos rfl]
  have h1 := (h.of_gnt hstep hgnt).2
  constructor
  · rw [← hserial, ← htick]
    exact sample_pending_byte h1.arrivals_eq hnone h1.words_left
  · exact sample_pending_of_pending (h.pending_of_gnt pending_right_withTwoPending hstep hgnt)

/-- The first byte is granted first when the other word's number is not smaller. -/
theorem gnt_byte_withTwoPending (hne : q ≠ .byte) (hin : s.inputs = []) (hle : m ≤ n)
    (hstep : step (s.withTwoPending .byte k m [k'] q l n) = .next t) : t.gnt = some .byte :=
  (twoPorts_withTwoPending hne.symm hin).gnt_byte_of_le (pending_left_withTwoPending hne.symm)
    pending_right_withTwoPending hle hstep

/-- Then the second byte comes before the other word when the number drawn for it is not above that word's. -/
theorem grantedOps_byte_byte_other (hne : q ≠ .byte) (hin : s.inputs = [])
    (hle : s.tick + 1 + Config.arbOrder s.serial ≤ n) (hmn : m ≤ n) :
    grantedOps 3 (s.withTwoPending .byte k m [k'] q l n) = [decode k, decode k', decode l] := by
  obtain ⟨t, hstep⟩ := step_next (s.withTwoPending .byte k m [k'] q l n)
  have hgnt := gnt_byte_withTwoPending hne hin hmn hstep
  have h : TwoPorts (s.withTwoPending .byte k m [k'] q l n) .byte [k, k'] q [l] :=
    twoPorts_withTwoPending hne.symm hin
  have h1 := (h.of_gnt hstep hgnt).2
  obtain ⟨hbyte, hother⟩ := pending_after_byte hne hin hstep hgnt
  obtain ⟨u, hstep1⟩ := step_next t
  have hgnt1 := h1.gnt_byte_of_le hbyte hother hle hstep1
  exact (h.grantedOps_of_gnt hstep hgnt 2).trans (congrArg _ (h1.grantedOps_of_gnt_last hstep1 hgnt1))

/-- Then the other word comes before the second byte when its number is below the one drawn for that byte. -/
theorem grantedOps_byte_other_byte (hne : q ≠ .byte) (hin : s.inputs = [])
    (hlt : n < s.tick + 1 + Config.arbOrder s.serial) (hmn : m ≤ n) :
    grantedOps 3 (s.withTwoPending .byte k m [k'] q l n) = [decode k, decode l, decode k'] := by
  obtain ⟨t, hstep⟩ := step_next (s.withTwoPending .byte k m [k'] q l n)
  have hgnt := gnt_byte_withTwoPending hne hin hmn hstep
  have h : TwoPorts (s.withTwoPending .byte k m [k'] q l n) .byte [k, k'] q [l] :=
    twoPorts_withTwoPending hne.symm hin
  have h1 := (h.of_gnt hstep hgnt).2
  obtain ⟨hbyte, hother⟩ := pending_after_byte hne hin hstep hgnt
  obtain ⟨u, hstep1⟩ := step_next t
  have hgnt1 := h1.symm.gnt_of_lt hother hbyte hlt hstep1
  exact (h.grantedOps_of_gnt hstep hgnt 2).trans (congrArg _ (h1.symm.grantedOps_of_gnt_last hstep1 hgnt1))

/-- The other word comes before both bytes when its number is below the first byte's. -/
theorem grantedOps_other_byte_byte (hne : q ≠ .byte) (hin : s.inputs = []) (hlt : n < m) :
    grantedOps 3 (s.withTwoPending .byte k m [k'] q l n) = [decode l, decode k, decode k'] := by
  obtain ⟨t, hstep⟩ := step_next (s.withTwoPending .byte k m [k'] q l n)
  exact (twoPorts_withTwoPending hne.symm hin).symm.grantedOps_of_gnt_last hstep
    (gnt_right_withTwoPending hne.symm hin hlt hstep)

end pairBeside

/-- Settles O48: the three orders of `grantedOps_three`, each under numbers that place the other word after, between and
before the bytes. -/
theorem pairOfBytesBesideAnotherRequestHasThreeSerialOutcomes :
    Obligations.PairOfBytesBesideAnotherRequestHasThreeSerialOutcomes := by
  intro s a v q l hne hin z
  have hbytes (b : Byte) : decode (encode (.onByteReceived b)) = .onByteReceived b := decode_encode _
  have hruns (m n : Nat) (ops : List Instr) : grantedOps 3 (z m n) = ops → RunsAs 3 (z m n) ops :=
    runsAs_of_grantedOps hin
  refine ⟨fun m n => ?_, ⟨0, s.tick + 1 + Config.arbOrder s.serial, hruns _ _ _ ?_⟩, ⟨0, 0, hruns _ _ _ ?_⟩,
    ⟨1, 0, hruns _ _ _ ?_⟩⟩
  · have htwo : TwoPorts (z m n) .byte [encode (.onByteReceived a), encode (.onByteReceived v)] q [l] :=
      twoPorts_withTwoPending hne.symm hin
    have horders := htwo.grantedOps_three
    rw [hbytes, hbytes] at horders
    exact horders.imp (hruns m n _) (Or.imp (hruns m n _) (hruns m n _))
  · exact (grantedOps_byte_byte_other hne hin (Nat.le_refl _) (Nat.zero_le _)).trans (by rw [hbytes, hbytes])
  · exact (grantedOps_byte_other_byte hne hin (by omega) (Nat.le_refl _)).trans (by rw [hbytes, hbytes])
  · exact (grantedOps_other_byte_byte hne hin Nat.zero_lt_one).trans (by rw [hbytes, hbytes])

end Sys2Proof.Machine
end

section
/-! PROOFS. Every request is granted: how long it can wait, and the order of a port's grants over a run (20_memory.md
section 8, rules R53, R56). -/

namespace Sys2Proof.Machine

/-! ### Runs in two parts -/

theorem run_append {j : Nat} {s t : State} (h : Sys2Proof.core.run j s = .next t) (k : Nat) :
    Sys2Proof.core.run (j + k) s = Sys2Proof.core.run k t := by
  induction j generalizing s with
  | zero => cases h; rw [Nat.zero_add]
  | succ j ih =>
    obtain ⟨s1, hstep⟩ := step_next s
    rw [run_succ hstep] at h
    rw [Nat.add_right_comm, run_succ hstep, ih h]

theorem grantedOnPort_succ (p : Port) {s t : State} (h : step s = .next t) (k : Nat) :
    grantedOnPort p (k + 1) s = (if t.gnt = some p then (granted s).toList else []) ++ grantedOnPort p k t := by
  rw [grantedOnPort, h]

theorem grantedOnPort_append (p : Port) {j : Nat} {s t : State} (h : Sys2Proof.core.run j s = .next t) (k : Nat) :
    grantedOnPort p (j + k) s = grantedOnPort p j s ++ grantedOnPort p k t := by
  induction j generalizing s with
  | zero => cases h; rw [Nat.zero_add]; rfl
  | succ j ih =>
    obtain ⟨s1, hstep⟩ := step_next s
    rw [run_succ hstep] at h
    rw [Nat.add_right_comm, grantedOnPort_succ p hstep, grantedOnPort_succ p hstep, ih h, List.append_assoc]

/-- A step that does not grant the port adds nothing to the port's grants. -/
theorem grantedOnPort_succ_of_ne {p : Port} {s t : State} (h : step s = .next t) (hne : t.gnt ≠ some p) (k : Nat) :
    grantedOnPort p (k + 1) s = grantedOnPort p k t := by
  rw [grantedOnPort_succ p h, if_neg hne, List.nil_append]

/-! ### How long a request can wait -/

/-- The other ports whose pending request can be granted before request `r` of port `p`: their numbers are not above its
own. -/
def rivals (p : Port) (r : Request) (q : Ports) : Finset Port :=
  (allPorts.toFinset.erase p).filter fun p' => (q.pending p').any fun r' => decide (r'.due ≤ r.due)

theorem mem_rivals {p p' : Port} {r : Request} {q : Ports} :
    p' ∈ rivals p r q ↔ p' ≠ p ∧ ∃ r', q.pending p' = some r' ∧ r'.due ≤ r.due := by
  have hmem : p' ∈ allPorts := by cases p' <;> decide
  simp [rivals, hmem, Option.any_eq_true]

theorem card_rivals_le (p : Port) (r : Request) (q : Ports) : (rivals p r q).card ≤ 4 := by
  have herase : (allPorts.toFinset.erase p).card = 4 := by cases p <;> decide
  exact herase ▸ Finset.card_filter_le _ _

/-- How many steps request `r` of port `p` can still wait: those until the clock has passed its number, and then one for
each rival, of which there are at most four (log entry 2). -/
def waitBound (p : Port) (r : Request) (s : State) : Nat :=
  (r.due + 1 - s.tick) + if r.due < s.tick then (rivals p r s.ports).card else 4

theorem waitBound_le (p : Port) (r : Request) (s : State) : waitBound p r s ≤ r.due + 1 - s.tick + 4 := by
  unfold waitBound
  have hcard := card_rivals_le p r s.ports
  split <;> omega

/-- Once the clock has passed a request's number nothing that becomes pending is a rival (log entry 2). -/
theorem rival_was_pending {s : State} {p' : Port} {r r' : Request} (hclock : r.due < s.tick)
    (hr' : (sample s).ports.pending p' = some r') (hle : r'.due ≤ r.due) : s.ports.pending p' = some r' := by
  rcases sample_pending_cases hr' with h | ⟨-, h⟩
  · exact h
  · omega

/-- Once the clock has passed a request's number, a grant of another port takes one of its rivals away and adds none. -/
theorem rivals_ssubset {s t : State} {p p' : Port} {r r' : Request} (hclock : r.due < s.tick)
    (hr : s.ports.pending p = some r) (hg : Grants s p' r' t) (hne : p' ≠ p) :
    rivals p r t.ports ⊂ rivals p r s.ports := by
  have hpending : ∀ p'', t.ports.pending p'' = if p'' = p' then none else (sample s).ports.pending p'' := fun p'' => by
    rw [hg.ports_eq, (Ports.remove_spec _ _ _).1]
  have hsub : rivals p r t.ports ⊆ rivals p r s.ports := fun p'' hp'' => by
    obtain ⟨hp, r'', hr'', hle⟩ := mem_rivals.mp hp''
    rw [hpending] at hr''
    split at hr''
    · cases hr''
    · exact mem_rivals.mpr ⟨hp, r'', rival_was_pending hclock hr'' hle, hle⟩
  have hle : r'.due ≤ r.due := hg.due_le (sample_pending_of_pending hr)
  have hwas : p' ∈ rivals p r s.ports :=
    mem_rivals.mpr ⟨hne, r', rival_was_pending hclock hg.pending_eq hle, hle⟩
  have hgone : p' ∉ rivals p r t.ports := fun hmem => by
    obtain ⟨-, r'', hr'', -⟩ := mem_rivals.mp hmem
    rw [hpending, if_pos rfl] at hr''
    cases hr''
  exact Finset.ssubset_iff_subset_ne.mpr ⟨hsub, fun heq => hgone (heq ▸ hwas)⟩

/-- A step grants a pending request, or leaves it pending and shortens its wait (R56). -/
theorem step_wait {s t : State} {p : Port} {r : Request} (hrst : s.input.rst = false) (hstep : step s = .next t)
    (hr : s.ports.pending p = some r) :
    (t.gnt = some p ∧ granted s = some (decode r.word)) ∨
      (t.gnt ≠ some p ∧ t.ports.pending p = some r ∧ waitBound p r t < waitBound p r s) := by
  have hr' := sample_pending_of_pending hr
  rcases step_grant_cases hrst hstep with ⟨hidle, -⟩ | ⟨p', r', hg⟩
  · cases (hidle p).symm.trans hr'
  by_cases hp : p' = p
  · subst hp
    cases hr'.symm.trans hg.pending_eq
    exact .inl ⟨hg.gnt_eq, hg.granted_eq⟩
  · refine .inr ⟨fun h => hp (Option.some.inj (hg.gnt_eq.symm.trans h)),
      hg.pending_of_ne (fun h => hp h.symm) hr', ?_⟩
    have hcard := card_rivals_le p r t.ports
    unfold waitBound
    rw [hg.tick_eq]
    by_cases hclock : r.due < s.tick
    · have hlt := Finset.card_lt_card (rivals_ssubset hclock hr hg hp)
      rw [if_pos hclock, if_pos (by omega)]
      omega
    · rw [if_neg hclock]
      split <;> omega

/-- Steps without `rst` before a bound: the coming one, and those after it. -/
theorem rst_eq_of_take {s : State} {n : Nat} (h : ∀ e ∈ s.inputs.take (n + 1), e.rst = false) :
    s.input.rst = false ∧ ∀ e ∈ s.inputs.tail.take n, e.rst = false := by
  unfold State.input
  cases hin : s.inputs with
  | nil => exact ⟨rfl, by simp⟩
  | cons e es =>
    rw [hin, List.take_succ_cons] at h
    exact List.forall_mem_cons.mp h

/-- A pending request waits, ungranted and unchanged, for at most `n` steps, where `n` bounds its wait, and is granted
in the next one; only the steps up to that one need be without `rst` (R56). -/
theorem pending_is_granted (n : Nat) {s : State} {p : Port} {r : Request} (hr : s.ports.pending p = some r)
    (hn : waitBound p r s ≤ n) (hrst : ∀ e ∈ s.inputs.take (n + 1), e.rst = false) :
    ∃ (k : Nat) (t u : State), k ≤ n ∧ Sys2Proof.core.run k s = .next t ∧ t.ports.pending p = some r ∧
      grantedOnPort p k s = [] ∧ step t = .next u ∧ u.gnt = some p ∧ granted t = some (decode r.word) := by
  induction n using Nat.strong_induction_on generalizing s with
  | _ n ih =>
    obtain ⟨hnow, hlater⟩ := rst_eq_of_take hrst
    obtain ⟨s1, hstep⟩ := step_next s
    rcases step_wait hnow hstep hr with ⟨hgnt, hgr⟩ | ⟨hgnt, hr1, hlt⟩
    · exact ⟨0, s, s1, Nat.zero_le n, rfl, hr, rfl, hstep, hgnt, hgr⟩
    · obtain ⟨m, rfl⟩ : ∃ m, n = m + 1 := ⟨n - 1, by omega⟩
      obtain ⟨k, t, u, hk, hrun, hrest⟩ :=
        ih m (Nat.lt_succ_self m) hr1 (by omega) (step_inputs hstep ▸ hlater)
      refine ⟨k + 1, t, u, Nat.succ_le_succ hk, (run_succ hstep k).trans hrun, ?_⟩
      rwa [grantedOnPort_succ_of_ne hstep hgnt]

/-- Settles O42: the wait of a request is bounded by its number, the clock and the four other ports. -/
theorem everyPendingRequestIsGrantedByItsNumber : Obligations.EveryPendingRequestIsGrantedByItsNumber := by
  intro s p r hr hrst
  obtain ⟨k, t, u, hk, hrun, hpending, -, hstep, hgnt, hgr⟩ := pending_is_granted _ hr (waitBound_le p r s) hrst
  exact ⟨k, t, u, hk, hrun, hpending, hstep, hgnt, hgr⟩

/-! ### The order of a port's grants -/

/-- A run uses up the environment's list from its front. -/
theorem run_inputs {k : Nat} {s t : State} (h : Sys2Proof.core.run k s = .next t) : t.inputs = s.inputs.drop k := by
  induction k generalizing s with
  | zero => cases h; rfl
  | succ k ih =>
    obtain ⟨s1, hstep⟩ := step_next s
    rw [run_succ hstep] at h
    rw [ih h, step_inputs hstep, List.drop_tail]

/-- After any run without `rst` what the port was granted and what is still on it are what was on it and what came
since, in order (R53). -/
theorem run_words (p : Port) {k : Nat} {s t : State} (hrst : ∀ e ∈ s.inputs, e.rst = false)
    (h : Sys2Proof.core.run k s = .next t) :
    ∃ came, grantedOnPort p k s ++ (t.ports.words p).map decode = (s.ports.words p).map decode ++ came := by
  induction k generalizing s with
  | zero => cases h; exact ⟨[], by simp [grantedOnPort]⟩
  | succ k ih =>
    obtain ⟨s1, hstep⟩ := step_next s
    rw [run_succ hstep] at h
    have hrst1 : ∀ e ∈ s1.inputs, e.rst = false := fun e he => hrst e (List.mem_of_mem_tail (step_inputs hstep ▸ he))
    obtain ⟨came, hcame⟩ := ih hrst1 h
    refine ⟨(s.arrivalsOn p).map decode ++ came, ?_⟩
    rw [grantedOnPort_succ p hstep, List.append_assoc, hcame, ← List.append_assoc, ← List.append_assoc,
      ← List.map_append]
    rcases step_words (input_rst_eq_false hrst) hstep p with ⟨k', hgnt, hgr, hwords⟩ | ⟨hgnt, hwords⟩
    · rw [if_pos hgnt, hgr, ← hwords]; rfl
    · rw [if_neg hgnt, hwords]; rfl

/-- A pending request is the port's next grant. -/
theorem pending_is_next_grant {s : State} {p : Port} {r : Request} (hrst : ∀ e ∈ s.inputs, e.rst = false)
    (hr : s.ports.pending p = some r) :
    ∃ (k : Nat) (t : State), Sys2Proof.core.run k s = .next t ∧ grantedOnPort p k s = [decode r.word] := by
  obtain ⟨k, t, u, -, hrun, -, hnone, hstep, hgnt, hgr⟩ :=
    pending_is_granted _ hr (Nat.le_refl _) fun e he => hrst e (List.mem_of_mem_take he)
  refine ⟨k + 1, u, (run_append hrun 1).trans (run_succ hstep 0), ?_⟩
  rw [grantedOnPort_append p hrun, hnone, grantedOnPort_succ p hstep, if_pos hgnt, hgr]
  rfl

/-- The first word on a port is the port's next grant, pending already or not. -/
theorem first_word_is_next_grant {s : State} {p : Port} {w : Packet} {ws : List Packet}
    (hrst : ∀ e ∈ s.inputs, e.rst = false) (hw : s.ports.words p = w :: ws) :
    ∃ (k : Nat) (t : State), Sys2Proof.core.run k s = .next t ∧ grantedOnPort p k s = [decode w] := by
  obtain ⟨s1, hstep⟩ := step_next s
  obtain ⟨r, hr⟩ : ∃ r, (sample s).ports.pending p = some r := Option.ne_none_iff_exists'.mp fun hnone => by
    cases hw.symm.trans (words_eq_nil_of_idle hnone).1
  have hword : r.word = w := by
    have hwords := (Ports.words_of_pending hr).symm.trans (sample_words s p)
    rw [hw, List.cons_append] at hwords
    exact (List.cons_eq_cons.mp hwords).1
  rcases step_grant_cases (input_rst_eq_false hrst) hstep with ⟨hidle, -⟩ | ⟨p', r', hg⟩
  · cases (hidle p).symm.trans hr
  by_cases hp : p = p'
  · subst hp
    cases hr.symm.trans hg.pending_eq
    refine ⟨1, s1, run_succ hstep 0, ?_⟩
    rw [grantedOnPort_succ p hstep, if_pos hg.gnt_eq, hg.granted_eq, hword]
    rfl
  · have hrst1 : ∀ e ∈ s1.inputs, e.rst = false := fun e he => hrst e (List.mem_of_mem_tail (step_inputs hstep ▸ he))
    obtain ⟨k, t, hrun, hgrants⟩ := pending_is_next_grant hrst1 (hg.pending_of_ne hp hr)
    have hgnt : s1.gnt ≠ some p := fun h => hp (Option.some.inj (h.symm.trans hg.gnt_eq))
    exact ⟨k + 1, t, (run_succ hstep k).trans hrun, by rw [grantedOnPort_succ_of_ne hstep hgnt, hgrants, hword]⟩

/-- The operations a port's words begin with are the port's next grants, in order (R53, R56). -/
theorem first_words_are_next_grants (is : List Instr) {s : State} {p : Port} {later : List Instr}
    (hrst : ∀ e ∈ s.inputs, e.rst = false) (his : (s.ports.words p).map decode = is ++ later) :
    ∃ (k : Nat) (t : State), Sys2Proof.core.run k s = .next t ∧ grantedOnPort p k s = is := by
  induction is generalizing s later with
  | nil => exact ⟨0, s, rfl, rfl⟩
  | cons i is ih =>
    obtain ⟨w, ws, hw, rfl, hws⟩ := List.map_eq_cons_iff.mp his
    obtain ⟨j, s1, hrun1, hgrant1⟩ := first_word_is_next_grant hrst hw
    obtain ⟨came, hcame⟩ := run_words p hrst hrun1
    have hwords : (s1.ports.words p).map decode = is ++ (later ++ came) := by simpa [hgrant1, his] using hcame
    have hrst1 : ∀ e ∈ s1.inputs, e.rst = false := fun e he => hrst e (List.mem_of_mem_drop (run_inputs hrun1 ▸ he))
    obtain ⟨k, t, hrun, hgrants⟩ := ih hrst1 hwords
    exact ⟨j + k, t, (run_append hrun1 k).trans hrun, by rw [grantedOnPort_append p hrun1, hgrant1, hgrants]; rfl⟩

/-- Settles O49: one run after the other, each granting the port's first word. -/
theorem everyWaitingWordIsGrantedInOrder : Obligations.EveryWaitingWordIsGrantedInOrder := by
  intro s p hrst
  obtain ⟨k, t, hrun, hgrants⟩ := first_words_are_next_grants _ hrst (List.append_nil _).symm
  exact ⟨k, t, [], hrun, hgrants.trans (List.append_nil _).symm⟩

end Sys2Proof.Machine
end

section
/-! PROOFS. Presented pairs arrive as their two bytes (30_encoding.md section 5; 20_memory.md section 7, rules R53, R85;
log entry 1). -/

namespace Sys2Proof.Machine

/-- What a presented word is on its port decodes to what its operation is made of (R85). -/
theorem map_decode_expand (k : Packet) : k.expand.map decode = (decode k).expand := by
  cases k with
  | cmd w =>
    rcases opCode_cases (cmdOp w) with h | h | h | h | h | h | h | h <;>
      simp [Packet.expand, decode, decodeCmd, Instr.expand, h]
  | pair w =>
    rw [Packet.expand, List.map_cons, List.map_cons, List.map_nil, decode_encode, decode_encode]
    rfl

/-- What presented words bring to a port: each as what it is made of, those the port carries (R70, R85). -/
def broughtTo (p : Port) (ks : List Packet) : List Instr :=
  ((ks.map decode).flatMap Instr.expand).filter fun i => decide (i.port = p)

theorem map_decode_arrivalsOn (s : State) (p : Port) : (s.arrivalsOn p).map decode = broughtTo p s.input.present := by
  have harrivals : s.arrivals.map decode = (s.input.present.map decode).flatMap Instr.expand := by
    simp only [State.arrivals, List.map_flatMap, List.flatMap_map, map_decode_expand]
  rw [broughtTo, ← harrivals, List.filter_map]
  rfl

/-- The operations on a port at a step's grant: those that were there, then those the step brings (R53). -/
theorem map_decode_sample_words (s : State) (p : Port) :
    ((sample s).ports.words p).map decode = (s.ports.words p).map decode ++ broughtTo p s.input.present := by
  rw [sample_words, List.map_append, map_decode_arrivalsOn]

/-- A presented pair brings its two bytes to `P_BYTE` and nothing elsewhere. -/
theorem broughtTo_pair (p : Port) (a v : Byte) :
    broughtTo p [.pair (pairWord a v)] = if p = .byte then [.onByteReceived a, .onByteReceived v] else [] := by
  have hdecode : decode (.pair (pairWord a v)) = .pair a v := decode_encode (.pair a v)
  rw [broughtTo, List.map_singleton, hdecode]
  cases p <;> rfl

theorem broughtTo_append (p : Port) (ks ls : List Packet) :
    broughtTo p (ks ++ ls) = broughtTo p ks ++ broughtTo p ls := by
  simp [broughtTo]

/-! ### The bytes -/

theorem bytesOf_append (is js : List Instr) : bytesOf (is ++ js) = bytesOf is ++ bytesOf js := by
  induction is with
  | nil => rfl
  | cons i is ih => cases i <;> simp [bytesOf, ih]

/-- Splitting pairs and sorting by port keeps the bytes on `P_BYTE`, in order (R75, R85). -/
theorem bytesOf_broughtTo_byte (ks : List Packet) : bytesOf (broughtTo .byte ks) = bytesOf (ks.map decode) := by
  induction ks with
  | nil => rfl
  | cons k ks ih =>
    rw [← List.singleton_append, broughtTo_append, bytesOf_append, ih, List.map_append, bytesOf_append,
      List.map_singleton, broughtTo, List.map_singleton]
    cases decode k <;> rfl

/-! ### A pair presented alone -/

/-- A pair presented to empty ports is two bytes on `P_BYTE`; the step grants the first and leaves the second. -/
theorem step_of_pair_alone {s t : State} {a v : Byte} (hinput : s.input = ⟨false, [.pair (pairWord a v)]⟩)
    (hports : s.ports = Ports.empty) (hstep : step s = .next t) :
    granted s = some (.onByteReceived a) ∧ t.gnt = some .byte ∧
      (t.ports.words .byte).map decode = [.onByteReceived v] ∧ ∀ p, p ≠ .byte → t.ports.words p = [] := by
  have hbrought : ∀ p, (s.ports.words p ++ s.arrivalsOn p).map decode =
      if p = .byte then [.onByteReceived a, .onByteReceived v] else [] := fun p => by
    rw [← sample_words, map_decode_sample_words, hports, hinput, broughtTo_pair, Ports.words_empty]
    rfl
  have hother : ∀ p, p ≠ .byte → s.ports.words p ++ s.arrivalsOn p = [] := fun p hp =>
    List.map_eq_nil_iff.mp ((hbrought p).trans (if_neg hp))
  have hbyte := (hbrought .byte).trans (if_pos rfl)
  have hrst : s.input.rst = false := by rw [hinput]
  rcases step_grant_cases hrst hstep with ⟨hidle, -⟩ | ⟨p, r, hg⟩
  · obtain ⟨hwords, harrivals⟩ := words_eq_nil_of_idle (hidle .byte)
    rw [hwords, harrivals] at hbyte
    cases hbyte
  · have hp : p = .byte := by
      by_contra hne
      cases hg.words_self.trans (hother p hne)
    subst hp
    rw [← hg.words_self, List.map_cons] at hbyte
    obtain ⟨hfirst, hsecond⟩ := List.cons_eq_cons.mp hbyte
    exact ⟨hfirst ▸ hg.granted_eq, hg.gnt_eq, hsecond, fun p hp => (hg.words_of_ne hp).trans (hother p hp)⟩

/-- Settles O47: what a step brings to a port is the presented words taken apart; around a pair they split into what
comes before it and what comes after it. -/
theorem presentedPairsArriveAsTheirTwoBytesInOrder : Obligations.PresentedPairsArriveAsTheirTwoBytesInOrder := by
  refine ⟨map_decode_sample_words, fun s a v before after hpresent => ?_, fun s a v hinput hports => ?_⟩
  · refine ⟨(s.ports.words .byte).map decode ++ broughtTo .byte before, broughtTo .byte after, ?_, ?_,
      bytesOf_broughtTo_byte after⟩
    · rw [map_decode_sample_words, hpresent, broughtTo_append, ← List.singleton_append, broughtTo_append,
        broughtTo_pair, if_pos rfl, List.append_assoc]
      rfl
    · rw [bytesOf_append, bytesOf_broughtTo_byte]
  · obtain ⟨t, hstep⟩ := step_next s
    exact ⟨t, hstep, step_of_pair_alone hinput hports hstep⟩

end Sys2Proof.Machine
end
